-- ==== Sys2Proof/Word.lean ====
section
/-! DEFINITION. Word: the widths the spec gives its words (spec/30_encoding.md R70, R71, R76; spec/00_scope.md R10). -/

namespace Sys2Proof

/-- A byte, 0..255 (spec/00_scope.md R10): the wire, both buffers and the immediate are made of bytes. -/
abbrev Byte := BitVec 8

/-- A command word, `op` in bits 15:8 and `imm` in bits 7:0 (spec/30_encoding.md R70). -/
abbrev CmdWord := BitVec 16

/-- A 32-bit port: `settings_in[31:0]` (R71) and `dec_data[31:0]` (R76). -/
abbrev Port32 := BitVec 32

end Sys2Proof
end

