-- ==== Sys2Proof/Machine/Values.lean ====
section
/-! DEFINITION. Values: the plain data types that the commands, the frames and the responses carry
(spec/10_state.md R40 to R42; spec/30_encoding.md R75; spec/60_exceptions.md R246). Types only: the functions over
them stand in the other files of Machine/. -/

namespace Sys2Proof

/-- Power (R40). -/
inductive Power where
  | off | on
  deriving DecidableEq, Repr

/-- Operating mode (R40). -/
inductive Mode where
  | heat | dry | cool | fan | auto
  deriving DecidableEq, Repr

/-- Fan speed; f1..f4 are the source's 1..4 (R40). -/
inductive Fan where
  | auto | quiet | f1 | f2 | f3 | f4
  deriving DecidableEq, Repr

/-- Vertical vane; v1..v5 are the source's 1..5 (R40). -/
inductive Vane where
  | auto | v1 | v2 | v3 | v4 | v5 | swing
  deriving DecidableEq, Repr

/-- Horizontal vane (R40). -/
inductive WideVane where
  | fullLeft | halfLeft | center | halfRight | fullRight | leftAndRight | swing
  deriving DecidableEq, Repr

/-- What an info-request asks for (R85). -/
inductive InfoKind where
  | settings | roomTemp
  deriving DecidableEq, Repr

/-- A settings record: each field is `none` (invalid) or `some v` (valid), spec/00_scope.md R12 and R40.
The target temperature is an integer in degrees Celsius. -/
structure Settings where
  power    : Option Power    := none
  mode     : Option Mode     := none
  fan      : Option Fan      := none
  vane     : Option Vane     := none
  wideVane : Option WideVane := none
  temp     : Option Int      := none
  deriving DecidableEq, Repr

/-- A room-temperature record; the raw byte is uninterpreted (R41). -/
structure RoomTemp where
  room : Option Int  := none
  raw  : Option Byte := none
  deriving DecidableEq, Repr

/-- The kinds this side normally sends, recognized but ignored when received (R42, R171). -/
inductive IgnoredKind where
  | connect | settingsWrite | infoRequest
  deriving DecidableEq, Repr

/-- The result of decoding the frame in the receive buffer (R42). -/
inductive DecodeResult where
  | noMessage
  | ignored (k : IgnoredKind)
  | curSettings (s : Settings)
  | curRoomTemp (r : RoomTemp)
  | curUnrecognizedSubKind
  | statusOk
  | statusNotOk
  | unrecognizedKind
  deriving DecidableEq, Repr

/-- The one response a command gives its host (spec/30_encoding.md R75). -/
inductive Response where
  /-- `none` in R72: an acknowledgement with no value. -/
  | ack
  | bool (b : Bool)
  | byte (v : Byte)
  /-- A frame length in bytes. -/
  | length (n : Nat)
  | decoded (r : DecodeResult)
  deriving DecidableEq, Repr

/-- The four states of the frame state machine (spec/10_state.md R28). -/
inductive FrameState where
  | empty | accumulating | completeValid | completeInvalid
  deriving DecidableEq, Repr

/-- The OPEN parameter FULL_VALID_POLICY (spec/41_assembler.md R163): what RX_PUSH does to a full buffer that holds a
valid frame. -/
inductive FullValidPolicy where
  /-- The buffer is reset and the byte is evaluated against the empty-state rule. -/
  | reset
  /-- The byte is discarded and the state is unchanged. -/
  | drop
  deriving DecidableEq, Repr, Inhabited

/-- One command as the host issues it: the 16-bit word (R70), and what stands on the operand port `settings_in` while
it executes (R71). -/
structure Command where
  word       : CmdWord
  settingsIn : Port32 := 0
  deriving DecidableEq, Repr

/-- Why a command word or operand spells no command: the closed list of spec/60_exceptions.md R246. -/
inductive RefuseReason where
  /-- `op` is in no row of R72 (R73). -/
  | reservedOpcode
  /-- A must-be-zero bit of imm is 1 (R74), or `settings_in[31:27]` is not 0 (R79). -/
  | nonZeroReservedBits
  /-- A valid field of `settings_in` holds a reserved index (R81). -/
  | reservedEnumIndex
  deriving DecidableEq, Repr

/-- Why a byte sequence held by the assembler spells no frame of a known kind. None of these is an error of the
machine: RX_DECODE answers NoMessage for the first two (R170) and UnrecognizedKind for the last (R177). -/
inductive FrameReject where
  /-- The frame is not complete, and with a length byte above 26 it never is (spec/10_state.md R25, R26). -/
  | incomplete
  /-- A header constant or the checksum is wrong (R27). -/
  | invalid
  /-- Complete and valid, of a message type that R88 does not list (R177). -/
  | unrecognizedKind
  deriving DecidableEq, Repr

/-- An encoded instruction: a command word with its operand port, or the bytes of a wire frame. The opcode table holds
both kinds of row. -/
inductive Packet where
  | command (c : Command)
  | wire (bs : List Byte)
  deriving DecidableEq, Repr

/-- Why a packet does not decode. -/
inductive Reject where
  | command (r : RefuseReason)
  | frame (r : FrameReject)
  deriving DecidableEq, Repr

end Sys2Proof
end

