-- ==== Sys2Proof/Config.lean ====
section
/-! DEFINITION. Config: the parameters of spec/00_scope.md R9 whose ground is not the source, as one record of
parameters that the operations take as an argument, and the OPEN parameters as constants without a body. The values the
spec gives the record stand in Machine/Codec.lean (`Machine.codec`). -/

namespace Sys2Proof

/-- Capacity of the receive buffer, RX_CAP (R9, source). -/
abbrev rxCap : Nat := 32

/-- The longest payload of a frame that can become complete: the frame is `6 + L` bytes long and the receive buffer holds 32
(spec/10_state.md R25). -/
abbrev maxPayload : Nat := 26

/-- The codes of one settings enum: wire codes (spec/30_encoding.md R103 to R107), canonical strings
(spec/40_frame_model.md R141), and the value `fromString` returns on failure (R143). -/
structure Codes (α : Type) where
  wire : α → Byte
  name : α → String
  dflt : α

/-- The parameters of an implementation (R9). An operation that depends on one takes this record as an argument; no
command changes any of them (spec/10_state.md R39). -/
structure Params where
  /-- TX_CAP, the capacity of the transmit buffer in bytes, D16. `Machine.State` gives the transmit side that many bytes. -/
  txCap : Nat
  /-- INFO_REQ_LEN, D8. -/
  infoReqLen : Nat
  /-- SW_LEN, D9. -/
  swLen : Nat
  /-- INFO_KIND_OFF, INFO_KIND_SETTINGS and INFO_KIND_ROOMTEMP, D7. -/
  infoKindOff : Nat
  infoKindSettings : Byte
  infoKindRoomTemp : Byte
  /-- Settings-write layout: SW_SUBCMD and payload offsets, R96 (D9). -/
  swSubcmd : Byte
  swSubcmdOff : Nat
  swControlOff : Nat
  swControl2Off : Nat
  swPowerOff : Nat
  swModeOff : Nat
  swTempOff : Nat
  swFanOff : Nat
  swVaneOff : Nat
  swWideVaneOff : Nat
  /-- Current-settings-response layout: payload offsets of the Settings record, R100 (D10). -/
  csPowerOff : Nat
  csModeOff : Nat
  csTempOff : Nat
  csFanOff : Nat
  csVaneOff : Nat
  csWideVaneOff : Nat
  /-- Payload offsets of the RoomTemp record, R101 (D11); the second is RAW_OFF. -/
  roomOff : Nat
  rawOff : Nat
  /-- Enum codes and strings, D6, D21 and D22. -/
  power : Codes Power
  mode : Codes Mode
  fan : Codes Fan
  vane : Codes Vane
  wideVane : Codes WideVane
  /-- FULL_VALID_POLICY, D12. -/
  fullValidPolicy : FullValidPolicy

/-- FULL_VALID_POLICY of the block. OPEN (R9, D12): it has no body, so no proof about the block knows which of the two
values it is, and a claim about the block holds under both. -/
opaque Config.fullValidPolicy : FullValidPolicy

/-- CMD_PORT_ADDR, the bus address of the command port. OPEN, the platform's choice (spec/20_memory.md R60, D2). No rule
of the block reads it. -/
opaque Config.cmdPortAddr : Nat

/-- MIN_TX_GAP, the idle time the host leaves between transmissions. OPEN, a host parameter
(spec/70_reset_and_hazards.md R279, D27). No rule of the block reads it. -/
opaque Config.minTxGap : Nat

/-- HANDSHAKE_REPEATS and HANDSHAKE_DELAY of the connect handshake. OPEN, host parameters (R274, D27). No rule of the
block reads them. -/
opaque Config.handshakeRepeats : Nat
opaque Config.handshakeDelay : Nat

end Sys2Proof
end

