-- ==== Sys2Proof/Machine/Codec.lean ====
section
/-! DEFINITION. Codec: the constants the source fixes (spec/00_scope.md R9), and `codec`, the parameter record of the block
with the spec's values (spec/30_encoding.md R94 to R107; spec/40_frame_model.md R141, R143). FULL_VALID_POLICY stays OPEN. -/

namespace Sys2Proof.Wire

/-- START, the frame-start marker (R87). -/
abbrev start : Byte := 0xFC
/-- HDR2 and HDR3, the constants at frame offsets 2 and 3 (R89). -/
abbrev hdr2 : Byte := 0x01
abbrev hdr3 : Byte := 0x30
/-- HDR_LEN, the header length (R86). -/
abbrev hdrLen : Nat := 5
/-- CHK_BASE, the checksum base constant (R120). -/
abbrev chkBase : Nat := 0xFC
/-- The message types (R88). -/
abbrev mtConnect : Byte := 0x5A
abbrev mtSettingsWrite : Byte := 0x41
abbrev mtInfoReq : Byte := 0x42
abbrev mtCurSettings : Byte := 0x62
abbrev mtStatusOk : Byte := 0x61
abbrev mtStatusNotOk : Byte := 0x7A
/-- CONNECT_PAYLOAD (R93). -/
abbrev connectPayload : List Byte := [0xCA, 0x01]
/-- The control-bit masks (R97). -/
abbrev cbPower : Byte := 0x01
abbrev cbMode : Byte := 0x02
abbrev cbTemp : Byte := 0x04
abbrev cbFan : Byte := 0x08
abbrev cbVane : Byte := 0x10
abbrev cbWideVane : Byte := 0x80

end Sys2Proof.Wire

namespace Sys2Proof.Machine

/-- Power: wire codes R103, strings R141, default R143. -/
def powerCodes : Codes Power where
  wire := fun v => match v with | .off => 0x00 | .on => 0x01
  name := fun v => match v with | .off => "off" | .on => "on"
  dflt := .off

/-- Mode: wire codes R104 (fan = 0x07 is the source's), strings R141, default R143. -/
def modeCodes : Codes Mode where
  wire := fun v => match v with | .heat => 0x01 | .dry => 0x02 | .cool => 0x03 | .fan => 0x07 | .auto => 0x08
  name := fun v => match v with
    | .heat => "heat" | .dry => "dry" | .cool => "cool" | .fan => "fan" | .auto => "auto"
  dflt := .heat

/-- Fan: wire codes R105, strings R141, default R143 (the source's: lowest non-auto speed). -/
def fanCodes : Codes Fan where
  wire := fun v => match v with
    | .auto => 0x00 | .quiet => 0x01 | .f1 => 0x02 | .f2 => 0x03 | .f3 => 0x05 | .f4 => 0x06
  name := fun v => match v with
    | .auto => "auto" | .quiet => "quiet" | .f1 => "1" | .f2 => "2" | .f3 => "3" | .f4 => "4"
  dflt := .f1

/-- Vane: wire codes R106, strings R141, default R143. -/
def vaneCodes : Codes Vane where
  wire := fun v => match v with
    | .auto => 0x00 | .v1 => 0x01 | .v2 => 0x02 | .v3 => 0x03 | .v4 => 0x04 | .v5 => 0x05 | .swing => 0x07
  name := fun v => match v with
    | .auto => "auto" | .v1 => "1" | .v2 => "2" | .v3 => "3" | .v4 => "4" | .v5 => "5" | .swing => "swing"
  dflt := .auto

/-- WideVane: wire codes R107 (center = 0x03 is the source's), strings R141, default R143. -/
def wideVaneCodes : Codes WideVane where
  wire := fun v => match v with
    | .fullLeft => 0x01 | .halfLeft => 0x02 | .center => 0x03 | .halfRight => 0x04 | .fullRight => 0x05
    | .leftAndRight => 0x08 | .swing => 0x0C
  name := fun v => match v with
    | .fullLeft => "full-left" | .halfLeft => "half-left" | .center => "center" | .halfRight => "half-right"
    | .fullRight => "full-right" | .leftAndRight => "left-and-right" | .swing => "swing"
  dflt := .fullLeft

/-- The parameters of the block, at the values the spec gives (R9). -/
def codec : Params where
  txCap := 32
  infoReqLen := 16
  swLen := 16
  infoKindOff := 0
  infoKindSettings := 0x02
  infoKindRoomTemp := 0x03
  swSubcmd := 0x01
  swSubcmdOff := 0
  swControlOff := 1
  swControl2Off := 2
  swPowerOff := 3
  swModeOff := 4
  swTempOff := 5
  swFanOff := 6
  swVaneOff := 7
  swWideVaneOff := 13
  csPowerOff := 3
  csModeOff := 4
  csTempOff := 5
  csFanOff := 6
  csVaneOff := 7
  csWideVaneOff := 10
  roomOff := 3
  rawOff := 6
  power := powerCodes
  mode := modeCodes
  fan := fanCodes
  vane := vaneCodes
  wideVane := wideVaneCodes
  fullValidPolicy := Config.fullValidPolicy

end Sys2Proof.Machine
end

