-- ==== Sys2Proof/Machine/FrameModel.lean ====
section
/-! DEFINITION. FrameModel: the pure functions of spec/40_frame_model.md (checksum, temperature conversions, enum wire
codes, settings equality), the index order of the enums (spec/30_encoding.md R80), and the layout of a wire frame (R86). -/

namespace Sys2Proof.Machine

/-- `sum(bytes)`, as an integer (spec/00_scope.md R13). -/
def byteSum (bs : List Byte) : Nat := (bs.map BitVec.toNat).sum

/-- `chk(bytes)` (R120): `(0xFC − (sum mod 256)) & 0xFF`. The subtraction is on integers; `BitVec.ofInt 8` is `& 0xFF`. -/
def chk (bs : List Byte) : Byte :=
  BitVec.ofInt 8 ((Wire.chkBase : Int) - ((byteSum bs % 256 : Nat) : Int))

/-- The bytes of a frame of message type `mt` (R86): header, payload, checksum. -/
def frameBytes (mt : Byte) (payload : List Byte) : List Byte :=
  let body := [Wire.start, mt, Wire.hdr2, Wire.hdr3, BitVec.ofNat 8 payload.length] ++ payload
  body ++ [chk body]

/-- R123. Out-of-range input encodes to 0 (spec/90_conflicts.md C2). -/
def tempToByte (d : Int) : Byte := if 16 ≤ d ∧ d ≤ 31 then BitVec.ofInt 8 (31 - d) else 0x00

/-- R124: the domain of `byteToTemp`. -/
def tempInDomain (b : Byte) : Bool := decide (b.toNat ≤ 0x0F)

/-- R124. -/
def byteToTemp (b : Byte) : Int := if b.toNat ≤ 0x0F then 31 - (b.toNat : Int) else 0

/-- R125. -/
def roomTempToByte (d : Int) : Byte := if 10 ≤ d ∧ d ≤ 41 then BitVec.ofInt 8 (d - 10) else 0x00

/-- R126: the domain of `byteToRoomTemp`. -/
def roomInDomain (b : Byte) : Bool := decide (b.toNat ≤ 0x1F)

/-- R126. -/
def byteToRoomTemp (b : Byte) : Int := if b.toNat ≤ 0x1F then (b.toNat : Int) + 10 else 0

/-- The values of each enum in index order (spec/30_encoding.md R80); an index past the end is reserved. -/
def allPower : List Power := [.off, .on]
def allMode : List Mode := [.heat, .dry, .cool, .fan, .auto]
def allFan : List Fan := [.auto, .quiet, .f1, .f2, .f3, .f4]
def allVane : List Vane := [.auto, .v1, .v2, .v3, .v4, .v5, .swing]
def allWideVane : List WideVane := [.fullLeft, .halfLeft, .center, .halfRight, .fullRight, .leftAndRight, .swing]

/-- R129: the value whose wire code is `b`, if there is one. `all` lists the enum's values. -/
def unwire {α : Type} (all : List α) (t : Codes α) (b : Byte) : Option α := all.find? fun v => t.wire v == b

/-- `unwire_E` for each enum E (R129). -/
def unwirePower (c : Params) : Byte → Option Power := unwire allPower c.power
def unwireMode (c : Params) : Byte → Option Mode := unwire allMode c.mode
def unwireFan (c : Params) : Byte → Option Fan := unwire allFan c.fan
def unwireVane (c : Params) : Byte → Option Vane := unwire allVane c.vane
def unwireWideVane (c : Params) : Byte → Option WideVane := unwire allWideVane c.wideVane

/-- `wire_InfoKind` (R130). -/
def wireInfoKind (c : Params) : InfoKind → Byte
  | .settings => c.infoKindSettings
  | .roomTemp => c.infoKindRoomTemp

/-- One field of two records agrees unless both are valid and differ (R131). -/
def fieldEq {α : Type} [DecidableEq α] (a b : Option α) : Bool :=
  match a, b with
  | some x, some y => decide (x = y)
  | _, _ => true

/-- R131: equality over the fields valid in both records. -/
def settingsEq (a b : Settings) : Bool :=
  fieldEq a.power b.power && fieldEq a.mode b.mode && fieldEq a.fan b.fan && fieldEq a.vane b.vane
    && fieldEq a.wideVane b.wideVane && fieldEq a.temp b.temp

end Sys2Proof.Machine
end

