-- ==== Sys2Proof/Machine/Operands.lean ====
section
/-! DEFINITION. Operands: the operand and result packing of spec/30_encoding.md §2 (R76 to R84): `settings_in`,
`dec_tag` and `dec_data`, and the byte response. -/

namespace Sys2Proof.Machine

/-- `v[hi:lo]` of a number (spec/00_scope.md R10), given as the low bit and the width. -/
def bitsAt (v lo width : Nat) : Nat := v / 2 ^ lo % 2 ^ width

/-- `sext_8` of an 8-bit field (R10). -/
def sext8 (v : Nat) : Int := (BitVec.ofNat 8 v).toInt

/-- Index of an enum value (R80). -/
def indexOf {α : Type} [DecidableEq α] (all : List α) (v : α) : Nat := all.idxOf v

/-- The valid bit of a packed field, at its own weight (R77, R84). -/
def packValid {α : Type} (f : Option α) (bit : Nat) : Nat :=
  match f with
  | none => 0
  | some _ => 2 ^ bit

/-- The value bits of a packed field; an invalid field has zero value bits (R77, R83). -/
def packValue {α : Type} (f : Option α) (code : α → Nat) (lo : Nat) : Nat :=
  match f with
  | none => 0
  | some v => code v * 2 ^ lo

/-- The 8-bit code of a signed temperature (R77, R78). -/
def tempCode (d : Int) : Nat := (BitVec.ofInt 8 d).toNat

/-- The Settings record in the layout of R77, as a number. -/
def packSettingsNat (st : Settings) : Nat :=
  packValid st.power 0 + packValue st.power (indexOf allPower) 1
  + packValid st.mode 2 + packValue st.mode (indexOf allMode) 3
  + packValid st.fan 6 + packValue st.fan (indexOf allFan) 7
  + packValid st.vane 10 + packValue st.vane (indexOf allVane) 11
  + packValid st.wideVane 14 + packValue st.wideVane (indexOf allWideVane) 15
  + packValid st.temp 18 + packValue st.temp tempCode 19

/-- The Settings record as `settings_in` and as the `dec_data` of CurSettings (R77, R83). -/
def packSettings (st : Settings) : Port32 := BitVec.ofNat 32 (packSettingsNat st)

/-- One enum field of `settings_in`: its valid bit at `bit` and `width` index bits above it. The value bits of an invalid
field are ignored (R77); a reserved index in a valid field is refused (R81). -/
def unpackField {α : Type} (all : List α) (w bit width : Nat) : Except RefuseReason (Option α) :=
  if bitsAt w bit 1 = 0 then .ok none
  else
    match all[bitsAt w (bit + 1) width]? with
    | some v => .ok (some v)
    | none => .error .reservedEnumIndex

/-- The temperature field of `settings_in` (R77, R78): every value is a legal operand. -/
def unpackTemp (w : Nat) : Option Int := if bitsAt w 18 1 = 0 then none else some (sext8 (bitsAt w 19 8))

/-- The Settings record on `settings_in` (R77). The reserved bits are checked before the enum indices
(spec/60_exceptions.md R248). -/
def unpackSettings (port : Port32) : Except RefuseReason Settings :=
  let w := port.toNat
  if bitsAt w 27 5 ≠ 0 then .error .nonZeroReservedBits
  else
    match unpackField allPower w 0 1, unpackField allMode w 2 3, unpackField allFan w 6 3,
        unpackField allVane w 10 3, unpackField allWideVane w 14 3 with
    | .ok power, .ok mode, .ok fan, .ok vane, .ok wideVane =>
      .ok ⟨power, mode, fan, vane, wideVane, unpackTemp w⟩
    | _, _, _, _, _ => .error .reservedEnumIndex

/-- The RoomTemp record as the `dec_data` of CurRoomTemp (R84). -/
def packRoomTemp (r : RoomTemp) : Port32 :=
  BitVec.ofNat 32 (packValid r.room 0 + packValue r.room tempCode 1
    + packValid r.raw 9 + packValue r.raw BitVec.toNat 10)

/-- `dec_tag[3:0]` of a DecodeResult (R82). -/
def decTag : DecodeResult → BitVec 4
  | .noMessage => 0
  | .ignored .connect => 1
  | .ignored .settingsWrite => 2
  | .ignored .infoRequest => 3
  | .curSettings _ => 4
  | .curRoomTemp _ => 5
  | .curUnrecognizedSubKind => 6
  | .statusOk => 7
  | .statusNotOk => 8
  | .unrecognizedKind => 9

/-- `dec_data[31:0]` of a DecodeResult (R82 to R84): zero for every tag but 4 and 5. -/
def decData : DecodeResult → Port32
  | .curSettings st => packSettings st
  | .curRoomTemp r => packRoomTemp r
  | .noMessage => 0
  | .ignored _ => 0
  | .curUnrecognizedSubKind => 0
  | .statusOk => 0
  | .statusNotOk => 0
  | .unrecognizedKind => 0

/-- `resp[7:0]` (R76): what a bool, byte or length response carries; an acknowledgement and a DecodeResult carry no value
there. -/
def respPort : Response → Option Byte
  | .ack => none
  | .bool b => some (if b then 0x01 else 0x00)
  | .byte v => some v
  | .length n => some (BitVec.ofNat 8 n)
  | .decoded _ => none

/-- `dec_tag` and `dec_data` (R76): what a DecodeResult response carries. -/
def decPort : Response → Option (BitVec 4 × Port32)
  | .ack => none
  | .bool _ => none
  | .byte _ => none
  | .length _ => none
  | .decoded r => some (decTag r, decData r)

end Sys2Proof.Machine
end

