-- ==== Sys2Proof/Syntax.lean ====
section
/-! DEFINITION. Syntax: one constructor for each of the nineteen rows of spec/opcode_table.json: the thirteen commands of
spec/30_encoding.md R72, and the six wire frames of R88 that the decoder knows by their message type. -/

namespace Sys2Proof

/-- The instructions. A command carries its operands with every encoding already removed: a temperature is the integer
`sext_8(imm)`, TX_SETTINGS carries the record unpacked from `settings_in` (R77). A wire frame carries its payload; the
start marker, the two constants, the length and the checksum belong to its encoding (R86). -/
inductive Instr where
  /-- RX_PUSH, R161. -/
  | rxPush (b : Byte)
  /-- RX_COMPLETE, R166. -/
  | rxComplete
  /-- RX_VALID, R167. -/
  | rxValid
  /-- RX_DECODE, R169. -/
  | rxDecode
  /-- RX_RESET, R180. -/
  | rxReset
  /-- TX_CONNECT, R212. -/
  | txConnect
  /-- TX_INFO_REQ, R213. -/
  | txInfoReq (kind : InfoKind)
  /-- TX_SETTINGS, R214. -/
  | txSettings (st : Settings)
  /-- TX_READ, R218; the index is imm[4:0]. -/
  | txRead (i : BitVec 5)
  /-- CV_T2B, R219. -/
  | cvT2b (d : Int)
  /-- CV_B2T, R220. -/
  | cvB2t (b : Byte)
  /-- CV_R2B, R221. -/
  | cvR2b (d : Int)
  /-- CV_B2R, R222. -/
  | cvB2r (b : Byte)
  /-- FRAME_CONNECT, message type 0x5A, R171. -/
  | frameConnect (payload : List Byte)
  /-- FRAME_SETTINGS_WRITE, message type 0x41, R171. -/
  | frameSettingsWrite (payload : List Byte)
  /-- FRAME_INFO_REQUEST, message type 0x42, R171. -/
  | frameInfoRequest (payload : List Byte)
  /-- FRAME_CUR_SETTINGS_RESPONSE, message type 0x62, R172. -/
  | frameCurSettings (payload : List Byte)
  /-- FRAME_STATUS_OK, message type 0x61, R176. -/
  | frameStatusOk (payload : List Byte)
  /-- FRAME_STATUS_NOT_OK, message type 0x7A, R176. -/
  | frameStatusNotOk (payload : List Byte)
  deriving DecidableEq, Repr

end Sys2Proof
end

