-- ==== Sys2Proof/WellFormed.lean ====
section
/-! DEFINITION. WellFormed: which instructions have an encoding. The enum fields, bytes and the TX_READ index are in
range by their types; what is left to check is the range of a temperature (spec/30_encoding.md R72, R77, R78) and the
length of a payload (spec/10_state.md R25). -/

namespace Sys2Proof

/-- A temperature operand fits `sext_8` (R72, R78): −128..127. -/
def tempFits (d : Int) : Bool := decide (-128 ≤ d) && decide (d ≤ 127)

/-- A settings record fits `settings_in` when its temperature, if valid, does (R77, R78). -/
def Settings.wf (st : Settings) : Bool :=
  match st.temp with
  | none => true
  | some d => tempFits d

/-- A payload whose frame the 32-byte receive buffer can hold (R25: only L ≤ 26 can ever become complete). -/
def payloadFits (payload : List Byte) : Bool := decide (payload.length ≤ maxPayload)

/-- Well-formed instructions: those with an encoding. -/
def Instr.wf : Instr → Bool
  | .rxPush _ => true
  | .rxComplete => true
  | .rxValid => true
  | .rxDecode => true
  | .rxReset => true
  | .txConnect => true
  | .txInfoReq _ => true
  | .txSettings st => st.wf
  | .txRead _ => true
  | .cvT2b d => tempFits d
  | .cvB2t _ => true
  | .cvR2b d => tempFits d
  | .cvB2r _ => true
  | .frameConnect p => payloadFits p
  | .frameSettingsWrite p => payloadFits p
  | .frameInfoRequest p => payloadFits p
  | .frameCurSettings p => payloadFits p
  | .frameStatusOk p => payloadFits p
  | .frameStatusNotOk p => payloadFits p

end Sys2Proof
end

