-- ==== Sys2Proof/Decode.lean ====
section
/-! DEFINITION. Decode: from command words and wire bytes to instructions, and back. `decodeCommand` is the command decoder
of spec/30_encoding.md §1 and §2 with the refusals of spec/60_exceptions.md R246 in the order of R248; `decodeFrame` is the
wire decoder of spec/30_encoding.md §3. Both are total. The encoders are written from the same tables. -/

namespace Sys2Proof

open Sys2Proof.Machine

/-! ## Commands -/

/-- `op`, bits 15:8 of the command word (R70). -/
def cmdOp (w : CmdWord) : Byte := w.extractLsb' 8 8

/-- `imm`, bits 7:0 of the command word (R70). -/
def cmdImm (w : CmdWord) : Byte := w.extractLsb' 0 8

/-- The word `op ‖ imm` (R70). -/
def cmdWord (op imm : Byte) : CmdWord := op ++ imm

/-- R74: the immediate bits from `lo` upward must be zero. -/
def mustBeZero (imm : Byte) (lo : Nat) (i : Instr) : Except RefuseReason Instr :=
  if imm.toNat / 2 ^ lo = 0 then .ok i else .error .nonZeroReservedBits

/-- `kind = imm[0]` (R85). -/
def kindOf (imm : Byte) : InfoKind := if imm.toNat % 2 = 0 then .settings else .roomTemp

/-- TX_SETTINGS: imm must be zero first, then the operand port must spell a Settings record (R248). -/
def decodeTxSettings (imm : Byte) (port : Port32) : Except RefuseReason Instr :=
  if imm.toNat ≠ 0 then .error .nonZeroReservedBits
  else
    match unpackSettings port with
    | .ok st => .ok (.txSettings st)
    | .error r => .error r

/-- The command decoder: the opcode map of R72, every other `op` refused as reserved (R73). Only TX_SETTINGS reads the
operand port (R71). -/
def decodeCommand (c : Command) : Except RefuseReason Instr :=
  let imm := cmdImm c.word
  match (cmdOp c.word).toNat with
  | 0x01 => .ok (.rxPush imm)
  | 0x02 => mustBeZero imm 0 .rxComplete
  | 0x03 => mustBeZero imm 0 .rxValid
  | 0x04 => mustBeZero imm 0 .rxDecode
  | 0x05 => mustBeZero imm 0 .rxReset
  | 0x10 => mustBeZero imm 0 .txConnect
  | 0x11 => mustBeZero imm 1 (.txInfoReq (kindOf imm))
  | 0x12 => decodeTxSettings imm c.settingsIn
  | 0x13 => mustBeZero imm 5 (.txRead (imm.extractLsb' 0 5))
  | 0x20 => .ok (.cvT2b imm.toInt)
  | 0x21 => .ok (.cvB2t imm)
  | 0x22 => .ok (.cvR2b imm.toInt)
  | 0x23 => .ok (.cvB2r imm)
  | _ => .error .reservedOpcode

/-! ## Wire frames -/

/-- The frame instruction of a message type with its payload (R88); `none` for a type the table does not list. -/
def frameOfType (mt : Byte) (payload : List Byte) : Option Instr :=
  if mt = Wire.mtConnect then some (.frameConnect payload)
  else if mt = Wire.mtSettingsWrite then some (.frameSettingsWrite payload)
  else if mt = Wire.mtInfoReq then some (.frameInfoRequest payload)
  else if mt = Wire.mtCurSettings then some (.frameCurSettings payload)
  else if mt = Wire.mtStatusOk then some (.frameStatusOk payload)
  else if mt = Wire.mtStatusNotOk then some (.frameStatusNotOk payload)
  else none

/-- The wire decoder: the frame at the front of a byte sequence, and the bytes after it (stale bytes, R53). The length is
read from offset 4 only once it is there (R92), the header constants and the checksum are checked on a complete frame (R27),
and the message type last (R250). -/
def decodeFrame (bs : List Byte) : Except FrameReject (Instr × List Byte) :=
  match bs with
  | b0 :: mt :: b2 :: b3 :: len :: rest =>
    let L := len.toNat
    if maxPayload < L ∨ rest.length < L + 1 then .error .incomplete
    else
      let payload := rest.take L
      if b0 = Wire.start ∧ b2 = Wire.hdr2 ∧ b3 = Wire.hdr3
          ∧ rest[L]? = some (chk ([b0, mt, b2, b3, len] ++ payload)) then
        match frameOfType mt payload with
        | some i => .ok (i, rest.drop (L + 1))
        | none => .error .unrecognizedKind
      else .error .invalid
  | _ => .error .incomplete

/-- The decoder of both kinds of packet. -/
def decode (p : Packet) : Except Reject Instr :=
  match p with
  | .command c =>
    match decodeCommand c with
    | .ok i => .ok i
    | .error r => .error (.command r)
  | .wire bs =>
    match decodeFrame bs with
    | .ok (i, _) => .ok i
    | .error r => .error (.frame r)

/-! ## The encoder -/

/-- `op ‖ imm` as a command with nothing on the operand port. -/
def cmdPacket (op imm : Byte) : Packet := .command ⟨cmdWord op imm, 0⟩

/-- The immediate of a TX_INFO_REQ (R85). -/
def kindImm : InfoKind → Byte
  | .settings => 0x00
  | .roomTemp => 0x01

/-- The encoding of an instruction: for a command its word and operand (R72, R77), for a frame its bytes (R86). -/
def encode : Instr → Packet
  | .rxPush b => cmdPacket 0x01 b
  | .rxComplete => cmdPacket 0x02 0x00
  | .rxValid => cmdPacket 0x03 0x00
  | .rxDecode => cmdPacket 0x04 0x00
  | .rxReset => cmdPacket 0x05 0x00
  | .txConnect => cmdPacket 0x10 0x00
  | .txInfoReq k => cmdPacket 0x11 (kindImm k)
  | .txSettings st => .command ⟨cmdWord 0x12 0x00, packSettings st⟩
  | .txRead i => cmdPacket 0x13 (i.setWidth 8)
  | .cvT2b d => cmdPacket 0x20 (BitVec.ofInt 8 d)
  | .cvB2t b => cmdPacket 0x21 b
  | .cvR2b d => cmdPacket 0x22 (BitVec.ofInt 8 d)
  | .cvB2r b => cmdPacket 0x23 b
  | .frameConnect p => .wire (frameBytes Wire.mtConnect p)
  | .frameSettingsWrite p => .wire (frameBytes Wire.mtSettingsWrite p)
  | .frameInfoRequest p => .wire (frameBytes Wire.mtInfoReq p)
  | .frameCurSettings p => .wire (frameBytes Wire.mtCurSettings p)
  | .frameStatusOk p => .wire (frameBytes Wire.mtStatusOk p)
  | .frameStatusNotOk p => .wire (frameBytes Wire.mtStatusNotOk p)

/-! ## The opcode table -/

/-- A row of spec/opcode_table.json: on a command row the mask and the match cover the command word, on a frame row they
cover frame bytes 0 and 1, byte 0 in the more significant half. -/
structure TableRow where
  mnemonic : String
  wire     : Bool
  mask     : BitVec 16
  pattern  : BitVec 16
  deriving DecidableEq, Repr

/-- The table's nineteen rows, in its order. -/
def tableRows : List TableRow :=
  [⟨"RX_PUSH", false, 0xFF00, 0x0100⟩, ⟨"RX_COMPLETE", false, 0xFFFF, 0x0200⟩, ⟨"RX_VALID", false, 0xFFFF, 0x0300⟩,
   ⟨"RX_DECODE", false, 0xFFFF, 0x0400⟩, ⟨"RX_RESET", false, 0xFFFF, 0x0500⟩]
  ++ [⟨"TX_CONNECT", false, 0xFFFF, 0x1000⟩, ⟨"TX_INFO_REQ", false, 0xFFFE, 0x1100⟩,
   ⟨"TX_SETTINGS", false, 0xFFFF, 0x1200⟩, ⟨"TX_READ", false, 0xFFE0, 0x1300⟩]
  ++ [⟨"CV_T2B", false, 0xFF00, 0x2000⟩, ⟨"CV_B2T", false, 0xFF00, 0x2100⟩, ⟨"CV_R2B", false, 0xFF00, 0x2200⟩,
   ⟨"CV_B2R", false, 0xFF00, 0x2300⟩]
  ++ [⟨"FRAME_CONNECT", true, 0xFFFF, 0xFC5A⟩, ⟨"FRAME_SETTINGS_WRITE", true, 0xFFFF, 0xFC41⟩,
   ⟨"FRAME_INFO_REQUEST", true, 0xFFFF, 0xFC42⟩, ⟨"FRAME_CUR_SETTINGS_RESPONSE", true, 0xFFFF, 0xFC62⟩,
   ⟨"FRAME_STATUS_OK", true, 0xFFFF, 0xFC61⟩, ⟨"FRAME_STATUS_NOT_OK", true, 0xFFFF, 0xFC7A⟩]

/-- A row covers a word of its kind when the masked bits match. -/
def TableRow.covers (r : TableRow) (wire : Bool) (w : BitVec 16) : Bool := (r.wire == wire) && (w &&& r.mask == r.pattern)

/-- The 16 bits of an encoded instruction that the table's masks speak of, with the kind of row: a command's word, or a
frame's first two bytes. -/
def Packet.tableWord : Packet → Bool × BitVec 16
  | .command c => (false, c.word)
  | .wire (b0 :: b1 :: _) => (true, b0 ++ b1)
  | .wire _ => (true, 0)

/-- The row an instruction stands for. -/
def Instr.mnemonic : Instr → String
  | .rxPush _ => "RX_PUSH"
  | .rxComplete => "RX_COMPLETE"
  | .rxValid => "RX_VALID"
  | .rxDecode => "RX_DECODE"
  | .rxReset => "RX_RESET"
  | .txConnect => "TX_CONNECT"
  | .txInfoReq _ => "TX_INFO_REQ"
  | .txSettings _ => "TX_SETTINGS"
  | .txRead _ => "TX_READ"
  | .cvT2b _ => "CV_T2B"
  | .cvB2t _ => "CV_B2T"
  | .cvR2b _ => "CV_R2B"
  | .cvB2r _ => "CV_B2R"
  | .frameConnect _ => "FRAME_CONNECT"
  | .frameSettingsWrite _ => "FRAME_SETTINGS_WRITE"
  | .frameInfoRequest _ => "FRAME_INFO_REQUEST"
  | .frameCurSettings _ => "FRAME_CUR_SETTINGS_RESPONSE"
  | .frameStatusOk _ => "FRAME_STATUS_OK"
  | .frameStatusNotOk _ => "FRAME_STATUS_NOT_OK"

/-- The packet that a table word of `nbits` bits spells. A high byte 0xFC is no command opcode (R73) and is the start
marker (R87), so such a word is the first two bytes of a frame; the table gives the frame's other bytes no bits, and the
shortest frame of that type is meant: no payload, the two constants and the checksum as R86 has them. Any other word is a
command word, and bits above 15 stand on the operand port. -/
def packetOfTableWord (nbits w : Nat) : Packet :=
  let v := w % 2 ^ nbits
  if v / 256 % 256 = 0xFC then .wire (frameBytes (BitVec.ofNat 8 v) [])
  else .command ⟨BitVec.ofNat 16 v, BitVec.ofNat 32 (v / 65536)⟩

/-- What the decoder reads from a word of the opcode table. -/
def decodeTableWord (nbits w : Nat) : Option Instr :=
  match decode (packetOfTableWord nbits w) with
  | .ok i => some i
  | .error _ => none

end Sys2Proof
end

