-- ==== Sys2Proof/Machine/State.lean ====
section
/-! DEFINITION. State: the architectural state of spec/10_state.md as plain data, with its reset values (R38), and the
reasons a step can stop. -/

namespace Sys2Proof.Machine

/-- A buffer of `n` bytes, indexed 0..n−1 (R21, R33). -/
abbrev Buffer (n : Nat) := Vector Byte n

/-- Every byte 0x00. -/
def zeroBuffer (n : Nat) : Buffer n := Vector.replicate n 0

/-- The receive side; RX_CAP is the source's (spec/00_scope.md R9). -/
structure Rx where
  /-- `rx_buf`, the receive buffer (R21). -/
  buf    : Buffer rxCap
  /-- `rx_cursor`, the number of bytes held in `rx_buf`, 0..32 (R22). -/
  cursor : Nat
  deriving DecidableEq, Repr

/-- A transmit side of capacity `cap`; it shares no state with the receive side (R35). -/
structure Tx (cap : Nat) where
  /-- `tx_buf`, the transmit buffer (R33). -/
  buf : Buffer cap
  /-- `tx_len`, the length of the frame in `tx_buf` (R34). -/
  len : Nat
  deriving DecidableEq, Repr

/-- The state of the block and of its one host. The first two fields are the whole programmer-visible state (R20). -/
structure State where
  rx : Rx
  /-- The transmit side, of the capacity TX_CAP the block is built with (R33; spec/00_scope.md R9). -/
  tx : Tx codec.txCap
  /-- The response ports: what the last command issued responded; `none` before the first command, and after a refused one,
  which gives no response (R75, R246). -/
  response : Option Response
  /-- The refusal mark, with the reason recorded first (spec/60_exceptions.md R246). `step` never sets it: a refused command
  has no step. The total run of Machine/HostRun.lean sets it. -/
  refusalMark : Option RefuseReason
  /-- The model's own field: the commands the host has still to issue, in its order. The host's sequence of commands is the
  program (R20); the block stores none of them (spec/20_memory.md R65). -/
  pending : List Command
  deriving DecidableEq, Repr

/-- The block raises no exceptions and has no fault state (R240): no step ends in a fault, and there is no reason to name. -/
inductive Fault where
  deriving DecidableEq, Repr

/-- Why a step is refused. -/
inductive Refusal where
  /-- An instruction that has no meaning in the model yet; raised by an arm of `exec` alone, and by none now. Safe. -/
  | notModelled (mnemonic : String)
  /-- A command word or operand that spells no command (R246): the command has no step. Raised by `step` alone, when the
  command decoder refuses the word or the operand. Safe: a claim about a run with a refused command cannot be proved. -/
  | illegalCommand (reason : RefuseReason)
  deriving DecidableEq, Repr

/-- An Empty receive side (R28, R38). -/
def Rx.empty : Rx := ⟨zeroBuffer rxCap, 0⟩

/-- A transmit side before any encode command (R38). -/
def Tx.blank (cap : Nat) : Tx cap := ⟨zeroBuffer cap, 0⟩

/-- The state after power-on reset (R38, R270). No command has been issued and no refusal mark is set. -/
def State.reset : State where
  rx := Rx.empty
  tx := Tx.blank codec.txCap
  response := none
  refusalMark := none
  pending := []

end Sys2Proof.Machine
end

