-- ==== Sys2Proof/Machine/Flags.lean ====
section
/-! DEFINITION. Flags: the two status bits, `rx_complete` and `rx_valid`, and the frame state. All of them are derived from
the receive buffer and its cursor and none is stored (spec/10_state.md R26 to R28, R36). -/

namespace Sys2Proof.Machine

/-- Byte `i` of a buffer. The commands read at indices below its size only (spec/20_memory.md R55); the value at any other
index is never consulted. -/
def byteAt {n : Nat} (buf : Buffer n) (i : Nat) : Byte := (buf[i]?).getD 0

/-- `rx_buf[i]` (R11). -/
def Rx.byte (r : Rx) (i : Nat) : Byte := byteAt r.buf i

/-- `tx_buf[i]` (R11). -/
def Tx.byte {cap : Nat} (t : Tx cap) (i : Nat) : Byte := byteAt t.buf i

/-- The first `n` bytes of a buffer, `buf[0 .. n)`. -/
def firstBytes {size : Nat} (buf : Buffer size) (n : Nat) : List Byte := buf.toList.take n

/-- L, the declared payload length (R25); it has a meaning only when the cursor is at least 5. -/
def Rx.payloadLen (r : Rx) : Nat := (r.byte 4).toNat

/-- `rx_complete` (R26). The first conjunct guards the read of the length byte. -/
def Rx.complete (r : Rx) : Bool := decide (5 ≤ r.cursor) && decide (6 + r.payloadLen ≤ r.cursor)

/-- The header constants at offsets 0, 2 and 3 (R27). -/
def Rx.headerOk (r : Rx) : Bool := (r.byte 0 == Wire.start) && (r.byte 2 == Wire.hdr2) && (r.byte 3 == Wire.hdr3)

/-- The checksum byte against the recomputed sum (R27; R31: no running sum is kept). -/
def Rx.checksumOk (r : Rx) : Bool := r.byte (5 + r.payloadLen) == chk (firstBytes r.buf (5 + r.payloadLen))

/-- `rx_valid` (R27). -/
def Rx.valid (r : Rx) : Bool := r.complete && r.headerOk && r.checksumOk

/-- The state of the frame state machine (R28). -/
def Rx.frameState (r : Rx) : FrameState :=
  if r.cursor = 0 then .empty
  else if r.complete then (if r.valid then .completeValid else .completeInvalid)
  else .accumulating

end Sys2Proof.Machine
end

