-- ==== Sys2Proof/Machine/Ops.lean ====
section
/-! DEFINITION. Ops: the shared operations of the commands: responding, the receive buffer (spec/41_assembler.md), the
decoder over it, the transmit buffer (spec/42_encoder.md), and the issue of a command. There is no exception to take and
none to return from (spec/60_exceptions.md R240, R253, R254). -/

namespace Sys2Proof.Machine

/-- The outcomes of this machine. -/
abbrev Result := Host.Outcome State Fault Refusal

/-- `respond(v)` (spec/00_scope.md R11): the command ends in the state `s` with its one response on the ports. -/
def respond (v : Response) (s : State) : Result := .next { s with response := some v }

/-! ## The receive buffer -/

/-- Empties the receive side: every byte 0x00 and the cursor 0, whatever it held (R163, R180). -/
def Rx.clear (_r : Rx) : Rx := Rx.empty

/-- Appends one byte at the cursor (R161). -/
def Rx.append (b : Byte) (r : Rx) : Rx := ⟨r.buf.setIfInBounds r.cursor b, r.cursor + 1⟩

/-- One byte against the empty-state rule, or appended to a non-empty buffer (R161, R162, R164). -/
def Rx.take (b : Byte) (r : Rx) : Rx :=
  if r.cursor = 0 then (if b = Wire.start then r.append b else r) else r.append b

/-- addByte (R161): on a full buffer the overflow test comes first (R163, R249), and `policy` decides the case of a full
buffer that holds a valid frame. -/
def Rx.push (policy : FullValidPolicy) (b : Byte) (r : Rx) : Rx :=
  if r.cursor = rxCap then
    if r.valid ∧ policy = .drop then r else r.clear.take b
  else r.take b

/-- A sequence of received bytes, first byte first (R181; `rx.feed` of spec/30_encoding.md R110). -/
def Rx.feed (policy : FullValidPolicy) (bs : List Byte) (r : Rx) : Rx := bs.foldl (fun t b => t.push policy b) r

/-! ## The decoder over the receive buffer -/

/-- `pay(p)`: payload byte `p` of the held frame, bounded by the declared length (R178). -/
def Rx.pay (r : Rx) (p : Nat) : Option Byte := if p < r.payloadLen then some (r.byte (5 + p)) else none

/-- `decodeSettings(pay)` (R173). -/
def decodeSettings (c : Params) (pay : Nat → Option Byte) : Settings where
  power := (pay c.csPowerOff).bind (unwirePower c)
  mode := (pay c.csModeOff).bind (unwireMode c)
  fan := (pay c.csFanOff).bind (unwireFan c)
  vane := (pay c.csVaneOff).bind (unwireVane c)
  wideVane := (pay c.csWideVaneOff).bind (unwireWideVane c)
  temp := (pay c.csTempOff).bind fun b => if tempInDomain b then some (byteToTemp b) else none

/-- `decodeRoomTemp(pay)` (R174). -/
def decodeRoomTemp (c : Params) (pay : Nat → Option Byte) : RoomTemp where
  room := (pay c.roomOff).bind fun b => if roomInDomain b then some (byteToRoomTemp b) else none
  raw := (pay c.rawOff).bind fun b => if b ≠ 0x00 then some b else none

/-- The dispatch of a current-settings-response on its sub-tag (R172, R175). -/
def decodeCurrent (c : Params) (pay : Nat → Option Byte) : DecodeResult :=
  match pay c.infoKindOff with
  | none => .curUnrecognizedSubKind
  | some tag =>
    if tag = c.infoKindSettings then .curSettings (decodeSettings c pay)
    else if tag = c.infoKindRoomTemp then .curRoomTemp (decodeRoomTemp c pay)
    else .curUnrecognizedSubKind

/-- getData (R169): validity first, then the message type (R250). -/
def Rx.decoded (c : Params) (r : Rx) : DecodeResult :=
  if r.valid then
    let mt := r.byte 1
    if mt = Wire.mtConnect then .ignored .connect
    else if mt = Wire.mtSettingsWrite then .ignored .settingsWrite
    else if mt = Wire.mtInfoReq then .ignored .infoRequest
    else if mt = Wire.mtCurSettings then decodeCurrent c r.pay
    else if mt = Wire.mtStatusOk then .statusOk
    else if mt = Wire.mtStatusNotOk then .statusNotOk
    else .unrecognizedKind
  else .noMessage

/-- The bytes the assembler holds, in arrival order (R51). -/
def Rx.held (r : Rx) : List Byte := firstBytes r.buf r.cursor

/-! ## The transmit buffer -/

/-- A buffer of `n` bytes that holds `bs` from index 0 and 0x00 after it. -/
def loadBuffer (n : Nat) (bs : List Byte) : Buffer n := ⟨((bs ++ List.replicate n 0).take n).toArray, by simp⟩

/-- `emit(mt, payload)` (R211): the transmit side is rewritten whole, all TX_CAP bytes of it (R33), whatever it held, and the
length is the frame's. -/
def emit (c : Params) (mt : Byte) (payload : List Byte) : Tx c.txCap :=
  ⟨loadBuffer c.txCap (frameBytes mt payload), 6 + payload.length⟩

/-- The payload of an info-request (R94, R213). -/
def infoReqPayload (c : Params) (kind : InfoKind) : List Byte :=
  (List.replicate c.infoReqLen (0x00 : Byte)).set c.infoKindOff (wireInfoKind c kind)

/-- Writes a valid field's wire value at its payload offset; an invalid field leaves 0x00 there (R214, R215). -/
def putField {α : Type} (f : Option α) (wire : α → Byte) (off : Nat) (pl : List Byte) : List Byte :=
  match f with
  | none => pl
  | some v => pl.set off (wire v)

/-- One bit of the control-bits byte (R97). -/
def controlBit {α : Type} (f : Option α) (mask : Byte) : Byte :=
  match f with
  | none => 0x00
  | some _ => mask

/-- The control-bits byte of a settings-write frame (R97, R216). -/
def controlBits (st : Settings) : Byte :=
  controlBit st.power Wire.cbPower ||| controlBit st.mode Wire.cbMode ||| controlBit st.temp Wire.cbTemp
    ||| controlBit st.fan Wire.cbFan ||| controlBit st.vane Wire.cbVane ||| controlBit st.wideVane Wire.cbWideVane

/-- The payload of a settings-write frame (R96, R214): the second control byte is 0x00 always. -/
def settingsPayload (c : Params) (st : Settings) : List Byte :=
  let blank := (List.replicate c.swLen (0x00 : Byte)).set c.swSubcmdOff c.swSubcmd
  let p1 := putField st.power c.power.wire c.swPowerOff blank
  let p2 := putField st.mode c.mode.wire c.swModeOff p1
  let p3 := putField st.temp tempToByte c.swTempOff p2
  let p4 := putField st.fan c.fan.wire c.swFanOff p3
  let p5 := putField st.vane c.vane.wire c.swVaneOff p4
  let p6 := putField st.wideVane c.wideVane.wire c.swWideVaneOff p5
  (p6.set c.swControlOff (controlBits st)).set c.swControl2Off 0x00

/-! ## Issuing a command -/

/-- What the host issues next, and the state once it is issued: the command is consumed (R65). `none` when the host issues
nothing. -/
def fetch (s : State) : Option (Except RefuseReason Instr × State) :=
  match s.pending with
  | [] => none
  | c :: rest => some (decodeCommand c, { s with pending := rest })

/-- A refused command (R246): the state is unchanged, no response is given, and the refusal mark is set and persists; the
reason recorded first stays. -/
def markRefusal (r : RefuseReason) (s : State) : State :=
  { s with response := none, refusalMark := some (s.refusalMark.getD r) }

end Sys2Proof.Machine
end

