-- ==== Sys2Proof/Machine/Cv.lean ====
section
/-! DEFINITION. Cv: the conversion commands (spec/42_encoder.md §6). They read and write no state (R210). -/

namespace Sys2Proof.Machine

/-- CV_T2B (R219). -/
def execCvT2b (d : Int) (s : State) : Result := respond (.byte (tempToByte d)) s

/-- CV_B2T (R220); the result, 16..31 or 0, fits a byte. -/
def execCvB2t (b : Byte) (s : State) : Result := respond (.byte (BitVec.ofInt 8 (byteToTemp b))) s

/-- CV_R2B (R221). -/
def execCvR2b (d : Int) (s : State) : Result := respond (.byte (roomTempToByte d)) s

/-- CV_B2R (R222); the result, 10..41 or 0, fits a byte. -/
def execCvB2r (b : Byte) (s : State) : Result := respond (.byte (BitVec.ofInt 8 (byteToRoomTemp b))) s

end Sys2Proof.Machine
end

