-- ==== Sys2Proof/Machine/Frame.lean ====
section
/-! DEFINITION. Frame: the meanings of the six wire-frame rows of the opcode table. A frame acts on the block when it stands
complete and valid in the receive buffer and the host issues RX_DECODE: the decoder then answers by the frame's message type
(spec/30_encoding.md R88; spec/41_assembler.md R171, R172, R176) and changes no state (R179). RX_DECODE's own meaning,
`execRxDecode`, is written from R169 over the buffer, apart from these; that the two agree is stated in the obligations. -/

namespace Sys2Proof.Machine

/-- `pay(p)` over a frame's payload: `none` at or beyond its length (R178). -/
def payloadAt (payload : List Byte) (p : Nat) : Option Byte := payload[p]?

/-- FRAME_CONNECT: recognized but ignored, no payload read (R171, R102). -/
def execFrameConnect (_payload : List Byte) (s : State) : Result := respond (.decoded (.ignored .connect)) s

/-- FRAME_SETTINGS_WRITE: recognized but ignored, no payload read (R171, R102). -/
def execFrameSettingsWrite (_payload : List Byte) (s : State) : Result := respond (.decoded (.ignored .settingsWrite)) s

/-- FRAME_INFO_REQUEST: recognized but ignored, no payload read (R171, R102). -/
def execFrameInfoRequest (_payload : List Byte) (s : State) : Result := respond (.decoded (.ignored .infoRequest)) s

/-- FRAME_CUR_SETTINGS_RESPONSE: dispatched on the sub-tag (R172 to R175). -/
def execFrameCurSettings (payload : List Byte) (s : State) : Result :=
  respond (.decoded (decodeCurrent codec (payloadAt payload))) s

/-- FRAME_STATUS_OK: the tag alone, whatever the length (R98, R176). -/
def execFrameStatusOk (_payload : List Byte) (s : State) : Result := respond (.decoded .statusOk) s

/-- FRAME_STATUS_NOT_OK: the tag alone, whatever the length; no further meaning is attached to it (R98, R176, U1). -/
def execFrameStatusNotOk (_payload : List Byte) (s : State) : Result := respond (.decoded .statusNotOk) s

end Sys2Proof.Machine
end

