-- ==== Sys2Proof/Machine/Rx.lean ====
section
/-! DEFINITION. Rx: the five RX commands (spec/41_assembler.md). -/

namespace Sys2Proof.Machine

/-- RX_PUSH (R161), under the block's FULL_VALID_POLICY, which is OPEN (R163). -/
def execRxPush (b : Byte) (s : State) : Result :=
  respond .ack { s with rx := s.rx.push codec.fullValidPolicy b }

/-- RX_COMPLETE (R166). -/
def execRxComplete (s : State) : Result := respond (.bool s.rx.complete) s

/-- RX_VALID (R167). -/
def execRxValid (s : State) : Result := respond (.bool s.rx.valid) s

/-- RX_DECODE (R169); it changes no state (R179). -/
def execRxDecode (s : State) : Result := respond (.decoded (s.rx.decoded codec)) s

/-- RX_RESET (R180); the TX side keeps its values (R271). -/
def execRxReset (s : State) : Result := respond .ack { s with rx := s.rx.clear }

end Sys2Proof.Machine
end

