-- ==== Sys2Proof/Machine/Tx.lean ====
section
/-! DEFINITION. Tx: the encode commands and the read-out command (spec/42_encoder.md). The response of an encode command is
the frame's length (R211). -/

namespace Sys2Proof.Machine

/-- Emits a frame and responds with its length (R211). -/
def emitAndRespond (mt : Byte) (payload : List Byte) (s : State) : Result :=
  respond (.length (6 + payload.length)) { s with tx := emit codec mt payload }

/-- TX_CONNECT (R212). -/
def execTxConnect (s : State) : Result := emitAndRespond Wire.mtConnect Wire.connectPayload s

/-- TX_INFO_REQ (R213). -/
def execTxInfoReq (kind : InfoKind) (s : State) : Result := emitAndRespond Wire.mtInfoReq (infoReqPayload codec kind) s

/-- TX_SETTINGS (R214). A reserved bit or index of the operand is refused by the decoder, so the record here is the one
`settings_in` spells. -/
def execTxSettings (st : Settings) (s : State) : Result :=
  emitAndRespond Wire.mtSettingsWrite (settingsPayload codec st) s

/-- TX_READ (R218). -/
def execTxRead (i : BitVec 5) (s : State) : Result := respond (.byte (s.tx.byte i.toNat)) s

end Sys2Proof.Machine
end

