-- ==== Sys2Proof/Machine/Dispatch.lean ====
section
/-! DEFINITION. Dispatch: one arm per constructor of Instr, each a call of its meaning. -/

namespace Sys2Proof.Machine

/-- The meaning of an instruction. -/
def exec (i : Instr) (s : State) : Host.Outcome State Fault Refusal :=
  match i with
  | .rxPush b => Sys2Proof.Machine.execRxPush b s
  | .rxComplete => Sys2Proof.Machine.execRxComplete s
  | .rxValid => Sys2Proof.Machine.execRxValid s
  | .rxDecode => Sys2Proof.Machine.execRxDecode s
  | .rxReset => Sys2Proof.Machine.execRxReset s
  | .txConnect => Sys2Proof.Machine.execTxConnect s
  | .txInfoReq kind => Sys2Proof.Machine.execTxInfoReq kind s
  | .txSettings st => Sys2Proof.Machine.execTxSettings st s
  | .txRead idx => Sys2Proof.Machine.execTxRead idx s
  | .cvT2b d => Sys2Proof.Machine.execCvT2b d s
  | .cvB2t b => Sys2Proof.Machine.execCvB2t b s
  | .cvR2b d => Sys2Proof.Machine.execCvR2b d s
  | .cvB2r b => Sys2Proof.Machine.execCvB2r b s
  | .frameConnect p => Sys2Proof.Machine.execFrameConnect p s
  | .frameSettingsWrite p => Sys2Proof.Machine.execFrameSettingsWrite p s
  | .frameInfoRequest p => Sys2Proof.Machine.execFrameInfoRequest p s
  | .frameCurSettings p => Sys2Proof.Machine.execFrameCurSettings p s
  | .frameStatusOk p => Sys2Proof.Machine.execFrameStatusOk p s
  | .frameStatusNotOk p => Sys2Proof.Machine.execFrameStatusNotOk p s

end Sys2Proof.Machine
end

