-- ==== Sys2Proof/Machine/Step.lean ====
section
/-! DEFINITION. Step: one step is one command of the host, taken whole (spec/20_memory.md R58, R62). -/

namespace Sys2Proof.Machine

/-- One step: the next command the host issues is decoded and executed. A command that spells nothing is refused and has no
step (spec/60_exceptions.md R246). When the host issues nothing, the block keeps its state (R259). -/
def step (s : State) : Host.Outcome State Fault Refusal :=
  match fetch s with
  | none => .next s
  | some (.ok i, t) => exec i t
  | some (.error r, _) => .refused (.illegalCommand r)

/-- The state in which the very next step runs the instruction of a table word. A command word is the next command the host
issues. A frame stands complete in the receive buffer, and the next command is RX_DECODE (0x0400), which runs it. -/
def State.withFetchWord (s : State) (nbits w : Nat) : State :=
  match packetOfTableWord nbits w with
  | .command c => { s with pending := c :: s.pending }
  | .wire bs => { s with rx := ⟨loadBuffer rxCap bs, bs.length⟩, pending := ⟨0x0400, 0⟩ :: s.pending }

end Sys2Proof.Machine
end

