-- ==== Sys2Proof/Machine/RunningSum.lean ====
section
/-! DEFINITION. RunningSum: the implementation that spec/10_state.md R31 allows, with a running sum register beside the receive
buffer. It is no part of State (D23: no command can read the register); that it gives the same `rx_valid` is stated in the
obligations. -/

namespace Sys2Proof.Machine

/-- The receive side of such an implementation: the buffer with its cursor, and the register. -/
structure SumRx where
  base : Rx
  sum  : Byte
  deriving DecidableEq, Repr

/-- Validity from the register instead of a recomputation. -/
def SumRx.valid (t : SumRx) : Bool :=
  t.base.complete && t.base.headerOk && (t.base.byte (5 + t.base.payloadLen) == BitVec.ofNat 8 Wire.chkBase - t.sum)

/-- A reset of the receive side clears the register. -/
def SumRx.clear (t : SumRx) : SumRx := ⟨t.base.clear, 0⟩

/-- Appends a byte; the register adds only the bytes at indices below 5 + L. -/
def SumRx.append (b : Byte) (t : SumRx) : SumRx :=
  let c := t.base.cursor
  ⟨t.base.append b, if c < 5 ∨ c < 5 + t.base.payloadLen then t.sum + b else t.sum⟩

/-- RX_PUSH of this implementation. -/
def SumRx.push (policy : FullValidPolicy) (b : Byte) (t : SumRx) : SumRx :=
  if t.base.cursor = rxCap ∧ t.valid ∧ policy = .drop then t
  else
    let u := if t.base.cursor = rxCap then t.clear else t
    if u.base.cursor = 0 ∧ b ≠ Wire.start then u else u.append b

/-- An event of the receive side: a byte, or RX_RESET. -/
inductive RxEvent where
  | push (b : Byte)
  | reset
  deriving DecidableEq, Repr

/-- An event on the block. -/
def Rx.event (policy : FullValidPolicy) (e : RxEvent) (r : Rx) : Rx :=
  match e with
  | .push b => r.push policy b
  | .reset => r.clear

/-- The same event on the implementation with the register. -/
def SumRx.event (policy : FullValidPolicy) (e : RxEvent) (t : SumRx) : SumRx :=
  match e with
  | .push b => t.push policy b
  | .reset => t.clear

end Sys2Proof.Machine
end

