-- ==== Sys2Proof/Machine/Strings.lean ====
section
/-! DEFINITION. Strings: the host-side companion functions of spec/40_frame_model.md §5 (R140 to R144). No command uses
them (R245). -/

namespace Sys2Proof.Machine

/-- R140: the canonical string of the value at an enum index, and the sentinel for a reserved index. -/
def stringAt {α : Type} (all : List α) (t : Codes α) (index : Nat) : String :=
  match all[index]? with
  | some v => t.name v
  | none => "undefined"

/-- R142: the value a string names, and whether it names one; the match is exact and case-sensitive. -/
def parseString {α : Type} (all : List α) (t : Codes α) (text : String) : α × Bool :=
  match all.find? fun v => t.name v == text with
  | some v => (v, true)
  | none => (t.dflt, false)

/-- R144: the field a caller may build from a result of `parseString`; a failed one is invalid. -/
def parsedField {α : Type} (r : α × Bool) : Option α := if r.2 then some r.1 else none

/-- `toString_E` on an enum index (R140). -/
def toStringPower (c : Params) : Nat → String := stringAt allPower c.power
def toStringMode (c : Params) : Nat → String := stringAt allMode c.mode
def toStringFan (c : Params) : Nat → String := stringAt allFan c.fan
def toStringVane (c : Params) : Nat → String := stringAt allVane c.vane
def toStringWideVane (c : Params) : Nat → String := stringAt allWideVane c.wideVane

/-- `fromString_E` (R142). -/
def fromStringPower (c : Params) : String → Power × Bool := parseString allPower c.power
def fromStringMode (c : Params) : String → Mode × Bool := parseString allMode c.mode
def fromStringFan (c : Params) : String → Fan × Bool := parseString allFan c.fan
def fromStringVane (c : Params) : String → Vane × Bool := parseString allVane c.vane
def fromStringWideVane (c : Params) : String → WideVane × Bool := parseString allWideVane c.wideVane

end Sys2Proof.Machine
end

