-- ==== Sys2Proof/Machine/HostRun.lean ====
section
/-! DEFINITION. HostRun: a run as the host sees it, over any command sequence, refused commands included
(spec/60_exceptions.md R246): a refused command leaves the state unchanged, gives no response and sets the refusal mark, which
persists, and the next command runs. A run with the mark set says nothing about the hardware. -/

namespace Sys2Proof.Machine

/-- One command issued to the block in the state `s`. -/
def issue (c : Command) (s : State) : State :=
  match decodeCommand c with
  | .error r => markRefusal r s
  | .ok i =>
    match exec i s with
    | .next t => t
    | .fault _ => s
    | .refused _ => s

/-- A sequence of commands, in the order the host issues them (spec/20_memory.md R62). -/
def runCommands (cs : List Command) (s : State) : State := cs.foldl (fun t c => issue c t) s

/-- The responses of a sequence of commands, one each; `none` for a refused command. -/
def transcript : List Command → State → List (Option Response)
  | [], _ => []
  | c :: cs, s => (issue c s).response :: transcript cs (issue c s)

/-- The commands of a sequence of instructions; the wire frames are no commands and give none. -/
def commandsOf (is : List Instr) : List Command :=
  is.filterMap fun i =>
    match encode i with
    | .command c => some c
    | .wire _ => none

end Sys2Proof.Machine
end

