-- ==== Sys2Proof/Safety.lean ====
section
/-! DEFINITION. Safety: the invariants of the block (spec/10_state.md R22 to R24, R34; spec/20_memory.md R56;
spec/42_encoder.md R223) and what counts as a run that a claim may speak of. -/

namespace Sys2Proof.Machine

/-- The receive side: the cursor is in 0..32 (R22), a non-empty buffer starts with the marker (R23), and every byte at or
above the cursor is zero (R24). -/
abbrev Rx.Inv (r : Rx) : Prop :=
  r.cursor ≤ 32 ∧ (0 < r.cursor → r.byte 0 = 0xFC) ∧ (∀ i < 32, r.cursor ≤ i → r.byte i = 0x00)

/-- The transmit side: `tx_len` is 0, 8 or 22 (R34), every byte at or above it is zero (R56), and what is below it is a frame
with its header constants, its length and its checksum right (R223). -/
abbrev Tx.Inv {cap : Nat} (t : Tx cap) : Prop :=
  (t.len = 0 ∨ t.len = 8 ∨ t.len = 22)
  ∧ (∀ i < cap, t.len ≤ i → t.byte i = 0x00)
  ∧ (0 < t.len →
      t.byte 0 = 0xFC ∧ t.byte 2 = 0x01 ∧ t.byte 3 = 0x30 ∧ 6 + (t.byte 4).toNat = t.len
        ∧ t.byte (t.len - 1) = chk (firstBytes t.buf (t.len - 1)))

/-- The invariant of the block. -/
abbrev State.Inv (s : State) : Prop := s.rx.Inv ∧ s.tx.Inv

/-- A run that a claim may speak of has no refusal mark (spec/60_exceptions.md R246). -/
abbrev State.Unmarked (s : State) : Prop := s.refusalMark = none

end Sys2Proof.Machine
end

