-- ==== Sys2Proof/Certificates/Slice0/Obligations.lean ====
section
/-! DEFINITION. Obligations: the statements for the provers. Numbers and tables are written out from the spec here, not taken
from the model, wherever a rule gives them. A statement whose rule depends on FULL_VALID_POLICY holds under both values
(spec/41_assembler.md R163). -/

namespace Sys2Proof.Claims

open Sys2Proof Sys2Proof.Machine

/-- `op` of a command word, as a number (R70). -/
def opNat (c : Command) : Nat := c.word.toNat / 256

/-- `imm` of a command word, as a number (R70). -/
def immNat (c : Command) : Nat := c.word.toNat % 256

/-- The reserved values of `op` (R73). -/
def ReservedOp (c : Command) : Prop :=
  opNat c = 0x00 ∨ (0x06 ≤ opNat c ∧ opNat c ≤ 0x0F) ∨ (0x14 ≤ opNat c ∧ opNat c ≤ 0x1F) ∨ 0x24 ≤ opNat c

/-- A must-be-zero bit of imm is 1 (R72, R74). -/
def NonZeroImm (c : Command) : Prop :=
  ((opNat c = 0x02 ∨ opNat c = 0x03 ∨ opNat c = 0x04 ∨ opNat c = 0x05 ∨ opNat c = 0x10 ∨ opNat c = 0x12) ∧ immNat c ≠ 0)
    ∨ (opNat c = 0x11 ∧ immNat c / 2 ≠ 0) ∨ (opNat c = 0x13 ∧ immNat c / 32 ≠ 0)

/-- `settings_in[31:27] ≠ 0` on a TX_SETTINGS (R79). -/
def ReservedPortBits (c : Command) : Prop := opNat c = 0x12 ∧ c.settingsIn.toNat / 2 ^ 27 ≠ 0

/-- A valid field of `settings_in` holds an index that R80 marks reserved, on a TX_SETTINGS (R81). -/
def ReservedIndex (c : Command) : Prop :=
  opNat c = 0x12 ∧
    ((c.settingsIn.toNat / 2 ^ 2 % 2 = 1 ∧ 5 ≤ c.settingsIn.toNat / 2 ^ 3 % 8)
      ∨ (c.settingsIn.toNat / 2 ^ 6 % 2 = 1 ∧ 6 ≤ c.settingsIn.toNat / 2 ^ 7 % 8)
      ∨ (c.settingsIn.toNat / 2 ^ 10 % 2 = 1 ∧ 7 ≤ c.settingsIn.toNat / 2 ^ 11 % 8)
      ∨ (c.settingsIn.toNat / 2 ^ 14 % 2 = 1 ∧ 7 ≤ c.settingsIn.toNat / 2 ^ 15 % 8))

/-- The programmer-visible state is the same (R20). -/
def SameBlock (s t : State) : Prop := t.rx = s.rx ∧ t.tx = s.tx

/-- The transmit buffer holds exactly the bytes `bs`, every byte after them is 0x00, and `tx_len` is their number. -/
def TxHolds (t : State) (bs : List Byte) : Prop := t.tx.len = bs.length ∧ ∀ i < 32, t.tx.byte i = bs.getD i 0x00

/-- An encode command went from `s` to `t`: the transmit buffer holds `bs`, the response is the frame's length, and the receive
side, the refusal mark and the host's further commands are unchanged. -/
def Encoded (s t : State) (bs : List Byte) : Prop :=
  TxHolds t bs ∧ t.response = some (.length bs.length) ∧ t.rx = s.rx ∧ t.refusalMark = s.refusalMark ∧ t.pending = s.pending

/-- A command responded `v` and changed nothing else. -/
def Responded (v : Response) (s : State) : Result := .next { s with response := some v }

/-- `rx_valid` written out from spec/10_state.md R26 and R27, with L = rx_buf[4]. -/
def ValidFrame (s : State) : Prop :=
  5 ≤ s.rx.cursor ∧ 6 + (s.rx.byte 4).toNat ≤ s.rx.cursor ∧ s.rx.byte 0 = 0xFC ∧ s.rx.byte 2 = 0x01 ∧ s.rx.byte 3 = 0x30
    ∧ s.rx.byte (5 + (s.rx.byte 4).toNat) = chk (firstBytes s.rx.buf (5 + (s.rx.byte 4).toNat))

/-- `pay(p)` written out from spec/41_assembler.md R169 and R178. -/
def pay (s : State) (p : Nat) : Option Byte := if p < (s.rx.byte 4).toNat then some (s.rx.byte (5 + p)) else none

/-- The host's RX_PUSH commands for a sequence of bytes, first byte first (`rx.feed`, R110). -/
def pushes (bs : List Byte) : List Command := bs.map fun b => ⟨0x01#8 ++ b, 0⟩

/-- The wire codes of spec/30_encoding.md R103 to R107. -/
def powerWire : Power → Byte
  | .off => 0x00 | .on => 0x01
def modeWire : Mode → Byte
  | .heat => 0x01 | .dry => 0x02 | .cool => 0x03 | .fan => 0x07 | .auto => 0x08
def fanWire : Fan → Byte
  | .auto => 0x00 | .quiet => 0x01 | .f1 => 0x02 | .f2 => 0x03 | .f3 => 0x05 | .f4 => 0x06
def vaneWire : Vane → Byte
  | .auto => 0x00 | .v1 => 0x01 | .v2 => 0x02 | .v3 => 0x03 | .v4 => 0x04 | .v5 => 0x05 | .swing => 0x07
def wideVaneWire : WideVane → Byte
  | .fullLeft => 0x01 | .halfLeft => 0x02 | .center => 0x03 | .halfRight => 0x04 | .fullRight => 0x05
  | .leftAndRight => 0x08 | .swing => 0x0C

/-- A decoded enum field is the value whose wire code the payload byte is, and invalid when there is no byte or no value
(spec/40_frame_model.md R129; spec/41_assembler.md R173). -/
def FieldRead {α : Type} (b : Option Byte) (wire : α → Byte) (f : Option α) : Prop :=
  ∀ v, f = some v ↔ b = some (wire v)

/-- The byte a field writes at its payload offset (R214, R215). -/
def fieldByte {α : Type} (f : Option α) (wire : α → Byte) : Byte :=
  match f with
  | none => 0x00
  | some v => wire v

/-- The temperature byte of R123. -/
def tempByte (d : Int) : Byte := if 16 ≤ d ∧ d ≤ 31 then BitVec.ofInt 8 (31 - d) else 0x00

/-- The control-bits byte of R97, one bit of the number for each valid field. -/
def controlByte (st : Settings) : Byte :=
  BitVec.ofNat 8 ((if st.power.isSome then 0x01 else 0) + (if st.mode.isSome then 0x02 else 0)
    + (if st.temp.isSome then 0x04 else 0) + (if st.fan.isSome then 0x08 else 0) + (if st.vane.isSome then 0x10 else 0)
    + (if st.wideVane.isSome then 0x80 else 0))

/-- The 21 bytes before the checksum of a settings-write frame (R95, R96). -/
def settingsBody (st : Settings) : List Byte :=
  [0xFC, 0x41, 0x01, 0x30, 0x10, 0x01, controlByte st, 0x00, fieldByte st.power powerWire, fieldByte st.mode modeWire,
   fieldByte st.temp tempByte]
  ++ [fieldByte st.fan fanWire, fieldByte st.vane vaneWire, 0x00, 0x00, 0x00, 0x00, 0x00, fieldByte st.wideVane wideVaneWire,
   0x00, 0x00]

/-- A field of the layout of R77: the valid bit at `bit`, and the value bits above it; for an invalid field the value bits are
not constrained. -/
def FieldBits {α : Type} (n bit width : Nat) (code : α → Nat) (f : Option α) : Prop :=
  match f with
  | none => n / 2 ^ bit % 2 = 0
  | some v => n / 2 ^ bit % 2 = 1 ∧ n / 2 ^ (bit + 1) % 2 ^ width = code v

/-- The value bits of an invalid field are zero (R77, output). -/
def ZeroIfInvalid {α : Type} (n bit width : Nat) (f : Option α) : Prop := f = none → n / 2 ^ (bit + 1) % 2 ^ width = 0

/-- The enum index codes of R80. -/
def powerIndex : Power → Nat
  | .off => 0 | .on => 1
def modeIndex : Mode → Nat
  | .heat => 0 | .dry => 1 | .cool => 2 | .fan => 3 | .auto => 4
def fanIndex : Fan → Nat
  | .auto => 0 | .quiet => 1 | .f1 => 2 | .f2 => 3 | .f3 => 4 | .f4 => 5
def vaneIndex : Vane → Nat
  | .auto => 0 | .v1 => 1 | .v2 => 2 | .v3 => 3 | .v4 => 4 | .v5 => 5 | .swing => 6
def wideVaneIndex : WideVane → Nat
  | .fullLeft => 0 | .halfLeft => 1 | .center => 2 | .halfRight => 3 | .fullRight => 4 | .leftAndRight => 5 | .swing => 6

/-- The temperature field of R77 and R78: the valid bit at 18, and the value is sext_8 of bits 26:19. -/
def TempBits (n : Nat) (f : Option Int) : Prop :=
  match f with
  | none => n / 2 ^ 18 % 2 = 0
  | some d => n / 2 ^ 18 % 2 = 1 ∧ d = (BitVec.ofNat 8 (n / 2 ^ 19 % 2 ^ 8)).toInt

/-- The layout of R77: bit positions from the table, indices from R80, the temperature as sext_8. -/
def Layout (n : Nat) (st : Settings) : Prop :=
  FieldBits n 0 1 powerIndex st.power ∧ FieldBits n 2 3 modeIndex st.mode ∧ FieldBits n 6 3 fanIndex st.fan
    ∧ FieldBits n 10 3 vaneIndex st.vane ∧ FieldBits n 14 3 wideVaneIndex st.wideVane
    ∧ TempBits n st.temp ∧ n / 2 ^ 27 = 0

/-- The same layout as written by the block: the value bits of an invalid field are zero as well (R77, R83). -/
def OutputLayout (n : Nat) (st : Settings) : Prop :=
  Layout n st ∧ ZeroIfInvalid n 0 1 st.power ∧ ZeroIfInvalid n 2 3 st.mode ∧ ZeroIfInvalid n 6 3 st.fan
    ∧ ZeroIfInvalid n 10 3 st.vane ∧ ZeroIfInvalid n 14 3 st.wideVane ∧ ZeroIfInvalid n 18 8 st.temp

/-- The fields of a Settings record decoded from payload bytes `q` (R173 with the offsets of R100 and the codes of R103 to
R107). -/
def SettingsRead (q : Nat → Option Byte) (st : Settings) : Prop :=
  FieldRead (q 3) powerWire st.power ∧ FieldRead (q 4) modeWire st.mode ∧ FieldRead (q 6) fanWire st.fan
    ∧ FieldRead (q 7) vaneWire st.vane ∧ FieldRead (q 10) wideVaneWire st.wideVane
    ∧ ∀ d, st.temp = some d ↔ ∃ b, q 5 = some b ∧ b.toNat ≤ 0x0F ∧ d = 31 - (b.toNat : Int)

/-- The fields of a RoomTemp record decoded from payload bytes `q` (R174 with the offsets of R101). -/
def RoomTempRead (q : Nat → Option Byte) (r : RoomTemp) : Prop :=
  (∀ d, r.room = some d ↔ ∃ b, q 3 = some b ∧ b.toNat ≤ 0x1F ∧ d = (b.toNat : Int) + 10)
    ∧ ∀ v, r.raw = some v ↔ q 6 = some v ∧ v ≠ 0x00

/-- A frame of message type `mt` with a payload (R86, R89, R91): header constants, length byte, payload, checksum. -/
def frame (mt : Byte) (payload : List Byte) : List Byte :=
  let body := [0xFC, mt, 0x01, 0x30, BitVec.ofNat 8 payload.length] ++ payload
  body ++ [chk body]

/-- A message type that the table of R88 does not list. -/
def UnlistedType (mt : Byte) : Prop := mt ≠ 0x5A ∧ mt ≠ 0x41 ∧ mt ≠ 0x42 ∧ mt ≠ 0x62 ∧ mt ≠ 0x61 ∧ mt ≠ 0x7A

/-- The commands that read and change no state: RX_COMPLETE, RX_VALID, RX_DECODE, TX_READ and the CV commands (R59), and the six
frame rows (log entry 3). -/
def readsOnly : Instr → Bool
  | .rxComplete => true
  | .rxValid => true
  | .rxDecode => true
  | .txRead _ => true
  | .cvT2b _ => true
  | .cvB2t _ => true
  | .cvR2b _ => true
  | .cvB2r _ => true
  | .rxPush _ => false
  | .rxReset => false
  | .txConnect => false
  | .txInfoReq _ => false
  | .txSettings _ => false
  | .frameConnect _ => true
  | .frameSettingsWrite _ => true
  | .frameInfoRequest _ => true
  | .frameCurSettings _ => true
  | .frameStatusOk _ => true
  | .frameStatusNotOk _ => true

/-- The RX commands (R160). -/
def isRx : Instr → Bool
  | .rxPush _ => true
  | .rxComplete => true
  | .rxValid => true
  | .rxDecode => true
  | .rxReset => true
  | .txConnect => false
  | .txInfoReq _ => false
  | .txSettings _ => false
  | .txRead _ => false
  | .cvT2b _ => false
  | .cvB2t _ => false
  | .cvR2b _ => false
  | .cvB2r _ => false
  | .frameConnect _ => false
  | .frameSettingsWrite _ => false
  | .frameInfoRequest _ => false
  | .frameCurSettings _ => false
  | .frameStatusOk _ => false
  | .frameStatusNotOk _ => false

/-- The TX commands (R210). -/
def isTx : Instr → Bool
  | .rxPush _ => false
  | .rxComplete => false
  | .rxValid => false
  | .rxDecode => false
  | .rxReset => false
  | .txConnect => true
  | .txInfoReq _ => true
  | .txSettings _ => true
  | .txRead _ => true
  | .cvT2b _ => false
  | .cvB2t _ => false
  | .cvR2b _ => false
  | .cvB2r _ => false
  | .frameConnect _ => false
  | .frameSettingsWrite _ => false
  | .frameInfoRequest _ => false
  | .frameCurSettings _ => false
  | .frameStatusOk _ => false
  | .frameStatusNotOk _ => false

/-- The response kind of R72 that a response has. -/
inductive ResponseKind where
  | none | bool | byte | length | decodeResult
  deriving DecidableEq, Repr

def kindOfResponse : Response → ResponseKind
  | .ack => .none
  | .bool _ => .bool
  | .byte _ => .byte
  | .length _ => .length
  | .decoded _ => .decodeResult

/-- The response column of R72; a frame is answered with a DecodeResult (R88). -/
def responseKind : Instr → ResponseKind
  | .rxPush _ => .none
  | .rxComplete => .bool
  | .rxValid => .bool
  | .rxDecode => .decodeResult
  | .rxReset => .none
  | .txConnect => .length
  | .txInfoReq _ => .length
  | .txSettings _ => .length
  | .txRead _ => .byte
  | .cvT2b _ => .byte
  | .cvB2t _ => .byte
  | .cvR2b _ => .byte
  | .cvB2r _ => .byte
  | .frameConnect _ => .decodeResult
  | .frameSettingsWrite _ => .decodeResult
  | .frameInfoRequest _ => .decodeResult
  | .frameCurSettings _ => .decodeResult
  | .frameStatusOk _ => .decodeResult
  | .frameStatusNotOk _ => .decodeResult

end Sys2Proof.Claims

open Sys2Proof Sys2Proof.Machine Sys2Proof.Claims

/-! ## Reset, issue and refusal -/

/-- R270: what power-on reset leaves, and that the block accepts commands at once. -/
def Obligations.PowerOnResetState : Prop :=
  (∀ i < 32, State.reset.rx.byte i = 0x00 ∧ State.reset.tx.byte i = 0x00) ∧ State.reset.rx.cursor = 0 ∧ State.reset.tx.len = 0
    ∧ State.reset.rx.complete = false ∧ State.reset.rx.valid = false ∧ State.reset.rx.frameState = .empty
    ∧ ∀ c i, decodeCommand c = .ok i → ∃ t, step { State.reset with pending := [c] } = .next t

/-- A step runs the next command of the host: R20, R62, R246. The list of pending commands, and the step that keeps the state
when the host issues nothing, are the model's choices (log entries 1 and 2). -/
def Obligations.StepRunsTheNextCommand : Prop :=
  (∀ s c rest i, s.pending = c :: rest → decodeCommand c = .ok i → step s = exec i { s with pending := rest })
    ∧ (∀ s c rest r, s.pending = c :: rest → decodeCommand c = .error r → step s = .refused (.illegalCommand r))
    ∧ (∀ s, s.pending = [] → step s = .next s)

/-- R73: a reserved opcode is refused, changes no state and gives no response. -/
def Obligations.ReservedOpcodeRefused : Prop :=
  ∀ (s : State) c rest, s.pending = c :: rest → ReservedOp c →
    step s = .refused (.illegalCommand .reservedOpcode) ∧ SameBlock s (issue c s) ∧ (issue c s).response = none

/-- R74: a non-zero must-be-zero immediate bit is refused, changes no state and gives no response. -/
def Obligations.NonZeroImmediateRefused : Prop :=
  ∀ (s : State) c rest, s.pending = c :: rest → NonZeroImm c →
    step s = .refused (.illegalCommand .nonZeroReservedBits) ∧ SameBlock s (issue c s) ∧ (issue c s).response = none

/-- R248 with R73, R74, R79 and R81: the checks of one command come in this order, the first that applies decides, and a command
to which none applies is executed. -/
def Obligations.RefusalChecksInOrder : Prop :=
  ∀ c : Command,
    (ReservedOp c → decodeCommand c = .error .reservedOpcode)
      ∧ (¬ ReservedOp c → NonZeroImm c → decodeCommand c = .error .nonZeroReservedBits)
      ∧ (¬ NonZeroImm c → ReservedPortBits c → decodeCommand c = .error .nonZeroReservedBits)
      ∧ (¬ NonZeroImm c → ¬ ReservedPortBits c → ReservedIndex c → decodeCommand c = .error .reservedEnumIndex)
      ∧ (¬ ReservedOp c → ¬ NonZeroImm c → ¬ ReservedPortBits c → ¬ ReservedIndex c → ∃ i, decodeCommand c = .ok i)

/-- R246: the refusal mark is set by a refused command and persists for the rest of the run; refused commands leave no trace but the
mark: the run ends in the block state of a run of its legal commands alone, and is unmarked exactly when it was unmarked before and
no command of it was refused. That the run goes on after a refused command, and that a mark keeps the reason recorded first, are
the model's reading (log entry 5, DEDUCED: R246 does not state them). -/
def Obligations.RefusalsLeaveOnlyTheMark : Prop :=
  (∀ c r (s : State), decodeCommand c = .error r → (issue c s).refusalMark.isSome = true)
    ∧ (∀ cs (s : State), s.refusalMark.isSome = true → (runCommands cs s).refusalMark = s.refusalMark)
    ∧ ∀ cs (s : State),
      SameBlock (runCommands (cs.filter fun c => (decodeCommand c).isOk) s) (runCommands cs s)
        ∧ ((runCommands cs s).refusalMark = none ↔ s.refusalMark = none ∧ ∀ c ∈ cs, (decodeCommand c).isOk = true)

/-- A step-by-step run of legal commands from `pending` is the total run of the same commands: the two ways of running the host's
program agree wherever a claim may speak (R246). -/
def Obligations.StepRunIsHostRun : Prop :=
  ∀ cs (s : State), s.pending = cs → (∀ c ∈ cs, (decodeCommand c).isOk = true) →
    Sys2Proof.core.run cs.length s = .next (runCommands cs { s with pending := [] })

/-- R75, R72: every instruction completes in every state with one response of its kind, a refused command gives none, nothing
faults (R240), and only the receive and transmit sides and the response can change. That a frame row is an instruction is the
model's choice (log entry 3). -/
def Obligations.EveryInstructionRespondsInKind : Prop :=
  (∀ i (s : State), ∃ t v, exec i s = .next t ∧ t.response = some v ∧ kindOfResponse v = responseKind i
      ∧ t.pending = s.pending ∧ t.refusalMark = s.refusalMark)
    ∧ (∀ c r (s : State), decodeCommand c = .error r → (issue c s).response = none)
    ∧ ∀ (s : State) r, step s ≠ .fault r

/-! ## Encodings -/

/-- The opcode map of R72: what each legal word decodes to, for every immediate and, but for TX_SETTINGS, whatever stands on the
operand port. -/
def Obligations.LegalWordsDecode : Prop :=
  ∀ (b : Byte) (idx : BitVec 5) (p : Port32),
    decodeCommand ⟨0x01#8 ++ b, p⟩ = .ok (.rxPush b) ∧ decodeCommand ⟨0x0200, p⟩ = .ok .rxComplete
      ∧ decodeCommand ⟨0x0300, p⟩ = .ok .rxValid ∧ decodeCommand ⟨0x0400, p⟩ = .ok .rxDecode
      ∧ decodeCommand ⟨0x0500, p⟩ = .ok .rxReset ∧ decodeCommand ⟨0x1000, p⟩ = .ok .txConnect
      ∧ decodeCommand ⟨0x1100, p⟩ = .ok (.txInfoReq .settings) ∧ decodeCommand ⟨0x1101, p⟩ = .ok (.txInfoReq .roomTemp)
      ∧ decodeCommand ⟨0x13#8 ++ (0#3 ++ idx), p⟩ = .ok (.txRead idx) ∧ decodeCommand ⟨0x20#8 ++ b, p⟩ = .ok (.cvT2b b.toInt)
      ∧ decodeCommand ⟨0x21#8 ++ b, p⟩ = .ok (.cvB2t b) ∧ decodeCommand ⟨0x22#8 ++ b, p⟩ = .ok (.cvR2b b.toInt)
      ∧ decodeCommand ⟨0x23#8 ++ b, p⟩ = .ok (.cvB2r b)
      ∧ ∀ st : Settings, st.wf = true → decodeCommand ⟨0x1200, packSettings st⟩ = .ok (.txSettings st)

/-- Words written out from the spec's vectors decode to the instruction they stand for (V1, V2, D2a, D3, F1, F7). -/
def Obligations.WrittenWordsDecode : Prop :=
  decodeCommand ⟨0x01FC, 0⟩ = .ok (.rxPush 0xFC) ∧ decodeCommand ⟨0x1307, 0⟩ = .ok (.txRead 7)
    ∧ decodeCommand ⟨0x1200, 0x00B40003⟩ = .ok (.txSettings { power := some .on, temp := some 22 })
    ∧ decodeCommand ⟨0x2080, 0⟩ = .ok (.cvT2b (-128)) ∧ decodeCommand ⟨0x1101, 0⟩ = .ok (.txInfoReq .roomTemp)
    ∧ decode (.wire [0xFC, 0x5A, 0x01, 0x30, 0x02, 0xCA, 0x01, 0xA8]) = .ok (.frameConnect [0xCA, 0x01])
    ∧ decode (.wire [0xFC, 0x61, 0x01, 0x30, 0x00, 0x6E]) = .ok (.frameStatusOk [])

/-- Decoding the encoding of a well-formed instruction gives it back, for commands and for frames. -/
def Obligations.DecodeOfEncode : Prop := ∀ i : Instr, i.wf = true → decode (encode i) = .ok i

/-- A word that decodes has one encoding: the decoded instruction is well-formed and encodes to the same word, and every command
but TX_SETTINGS ignores the operand port (R71). -/
def Obligations.EncodeOfDecodedCommand : Prop :=
  ∀ c i, decodeCommand c = .ok i →
    i.wf = true ∧ (∃ c', encode i = .command c' ∧ c'.word = c.word)
      ∧ ((∀ st, i ≠ .txSettings st) → ∀ p, decodeCommand ⟨c.word, p⟩ = .ok i)

/-- The wire decoder accepts exactly the encodings of well-formed frames, and gives back the bytes that follow (R86, R92). -/
def Obligations.WireDecoderIsExact : Prop :=
  ∀ bs i rest, decodeFrame bs = .ok (i, rest) ↔ i.wf = true ∧ ∃ f, encode i = .wire f ∧ bs = f ++ rest

/-- The command decoder and the rows of the opcode table agree: a word with a zero operand decodes when a row covers it and only
then, and the one row that covers it names the instruction. -/
def Obligations.DecoderFollowsTheTable : Prop :=
  (∀ w : CmdWord, (∃ i, decodeCommand ⟨w, 0⟩ = .ok i) ↔ ∃ r ∈ tableRows, r.covers false w = true)
    ∧ ∀ c i, decodeCommand c = .ok i → ∀ r ∈ tableRows, r.covers false c.word = true ↔ r.mnemonic = i.mnemonic

/-- R77 with the indices of R80: the layout of `settings_in` on input and of `dec_data` on output; the temperature is sext_8 of its
bits (R78), so every operand that unpacks is a well-formed record. -/
def Obligations.SettingsPortLayout : Prop :=
  (∀ (p : Port32) st, unpackSettings p = .ok st → Layout p.toNat st ∧ st.wf = true)
    ∧ ∀ st : Settings, st.wf = true → OutputLayout (packSettings st).toNat st

/-- R82 to R84: `dec_tag` and `dec_data` of every DecodeResult; a temperature fits its field (−128..127 and 0..255). -/
def Obligations.DecodeResultPorts : Prop :=
  decTag .noMessage = 0 ∧ decTag (.ignored .connect) = 1 ∧ decTag (.ignored .settingsWrite) = 2
    ∧ decTag (.ignored .infoRequest) = 3 ∧ (∀ st, decTag (.curSettings st) = 4) ∧ (∀ r, decTag (.curRoomTemp r) = 5)
    ∧ decTag .curUnrecognizedSubKind = 6 ∧ decTag .statusOk = 7 ∧ decTag .statusNotOk = 8 ∧ decTag .unrecognizedKind = 9
    ∧ (∀ r, (decTag r).toNat ≤ 9) ∧ (∀ r, decTag r ≠ 4 → decTag r ≠ 5 → decData r = 0)
    ∧ (∀ st : Settings, st.wf = true → OutputLayout (decData (.curSettings st)).toNat st)
    ∧ ∀ r : RoomTemp, (∀ d, r.room = some d → 0 ≤ d ∧ d ≤ 255) →
      let n := (decData (.curRoomTemp r)).toNat
      FieldBits n 0 8 Int.toNat r.room ∧ ZeroIfInvalid n 0 8 r.room ∧ FieldBits n 9 8 BitVec.toNat r.raw
        ∧ ZeroIfInvalid n 9 8 r.raw ∧ n / 2 ^ 18 = 0

/-- R76: what a response carries on `resp[7:0]` and on the DecodeResult ports. -/
def Obligations.ResponsePorts : Prop :=
  respPort (.bool false) = some 0x00 ∧ respPort (.bool true) = some 0x01 ∧ (∀ v, respPort (.byte v) = some v)
    ∧ (∀ n, respPort (.length n) = some (BitVec.ofNat 8 n)) ∧ (∀ r, decPort (.decoded r) = some (decTag r, decData r))

/-! ## RX commands -/

/-- R161 with R162 to R164: RX_PUSH in every reachable cursor position, for every byte, under the block's FULL_VALID_POLICY
whichever it is; the word is never refused. -/
def Obligations.RxPushByCursor : Prop :=
  ∀ (b : Byte) (s : State) (p : Port32),
    decodeCommand ⟨0x01#8 ++ b, p⟩ = .ok (.rxPush b)
      ∧ (s.rx.cursor = 0 → b ≠ 0xFC → exec (.rxPush b) s = Responded .ack s)
      ∧ (s.rx.cursor = 0 → b = 0xFC →
          exec (.rxPush b) s = Responded .ack { s with rx := ⟨s.rx.buf.setIfInBounds 0 0xFC, 1⟩ })
      ∧ (s.rx.cursor ≠ 0 → s.rx.cursor < 32 → exec (.rxPush b) s =
          Responded .ack { s with rx := ⟨s.rx.buf.setIfInBounds s.rx.cursor b, s.rx.cursor + 1⟩ })
      ∧ (s.rx.cursor = 32 → exec (.rxPush b) s =
          (if s.rx.valid = true ∧ Config.fullValidPolicy = .drop then Responded .ack s
           else if b = 0xFC then
             Responded .ack { s with rx := ⟨(Vector.replicate 32 0x00).setIfInBounds 0 0xFC, 1⟩ }
           else Responded .ack { s with rx := ⟨Vector.replicate 32 0x00, 0⟩ }))

/-- R163 under each value of FULL_VALID_POLICY: what a byte does to a full buffer, with a valid frame and without one, and that
the policy matters only with one. -/
def Obligations.FullValidPolicyValues : Prop :=
  (∀ (b : Byte) (r : Rx), r.cursor = 32 → r.valid = true →
      r.push .drop b = r ∧ r.push .reset b = (if b = 0xFC then ⟨(Vector.replicate 32 0x00).setIfInBounds 0 0xFC, 1⟩
        else ⟨Vector.replicate 32 0x00, 0⟩))
    ∧ (∀ (p : FullValidPolicy) (b : Byte) (r : Rx), r.cursor = 32 → r.valid = false →
      r.push p b = (if b = 0xFC then ⟨(Vector.replicate 32 0x00).setIfInBounds 0 0xFC, 1⟩ else ⟨Vector.replicate 32 0x00, 0⟩))
    ∧ (∀ (b : Byte) (r : Rx), ¬ (r.cursor = 32 ∧ r.valid = true) → r.push .drop b = r.push .reset b)
    ∧ ∀ (b : Byte) (s : State), exec (.rxPush b) s = Responded .ack { s with rx := s.rx.push Config.fullValidPolicy b }

/-- R166. -/
def Obligations.RxCompleteResult : Prop :=
  (∀ (imm : Byte) (p : Port32), decodeCommand ⟨0x02#8 ++ imm, p⟩ =
      if imm = 0 then .ok .rxComplete else .error .nonZeroReservedBits)
    ∧ ∀ s : State, exec .rxComplete s =
      Responded (.bool (decide (5 ≤ s.rx.cursor ∧ 6 + (s.rx.byte 4).toNat ≤ s.rx.cursor))) s

/-- R167 (and R26, R27 for the condition). -/
def Obligations.RxValidResult : Prop :=
  (∀ (imm : Byte) (p : Port32), decodeCommand ⟨0x03#8 ++ imm, p⟩ =
      if imm = 0 then .ok .rxValid else .error .nonZeroReservedBits)
    ∧ ∀ s : State, (ValidFrame s → exec .rxValid s = Responded (.bool true) s)
      ∧ (¬ ValidFrame s → exec .rxValid s = Responded (.bool false) s)

/-- R169 with R170, R171 and R175 to R177: RX_DECODE's dispatch, validity first, then the type, then the sub-tag. The two records
are those of `DecodedSettingsFields` and `DecodedRoomTempFields`. -/
def Obligations.RxDecodeDispatch : Prop :=
  (∀ (imm : Byte) (p : Port32), decodeCommand ⟨0x04#8 ++ imm, p⟩ =
      if imm = 0 then .ok .rxDecode else .error .nonZeroReservedBits)
    ∧ ∀ s : State,
      (¬ ValidFrame s → exec .rxDecode s = Responded (.decoded .noMessage) s)
      ∧ (ValidFrame s →
          (s.rx.byte 1 = 0x5A → exec .rxDecode s = Responded (.decoded (.ignored .connect)) s)
          ∧ (s.rx.byte 1 = 0x41 → exec .rxDecode s = Responded (.decoded (.ignored .settingsWrite)) s)
          ∧ (s.rx.byte 1 = 0x42 → exec .rxDecode s = Responded (.decoded (.ignored .infoRequest)) s)
          ∧ (s.rx.byte 1 = 0x62 → pay s 0 = some 0x02 →
              exec .rxDecode s = Responded (.decoded (.curSettings (decodeSettings codec (pay s)))) s)
          ∧ (s.rx.byte 1 = 0x62 → pay s 0 = some 0x03 →
              exec .rxDecode s = Responded (.decoded (.curRoomTemp (decodeRoomTemp codec (pay s)))) s)
          ∧ (s.rx.byte 1 = 0x62 → pay s 0 ≠ some 0x02 → pay s 0 ≠ some 0x03 →
              exec .rxDecode s = Responded (.decoded .curUnrecognizedSubKind) s)
          ∧ (s.rx.byte 1 = 0x61 → exec .rxDecode s = Responded (.decoded .statusOk) s)
          ∧ (s.rx.byte 1 = 0x7A → exec .rxDecode s = Responded (.decoded .statusNotOk) s)
          ∧ (s.rx.byte 1 ≠ 0x5A → s.rx.byte 1 ≠ 0x41 → s.rx.byte 1 ≠ 0x42 → s.rx.byte 1 ≠ 0x62 → s.rx.byte 1 ≠ 0x61 →
              s.rx.byte 1 ≠ 0x7A → exec .rxDecode s = Responded (.decoded .unrecognizedKind) s))

/-- R173 with the offsets of R100 and the codes of R103 to R107: a valid frame of type 0x62 with sub-tag 0x02 gives CurSettings,
whatever its fields are, and each field is read from its own payload offset, bounded by L. -/
def Obligations.DecodedSettingsFields : Prop :=
  (∀ q : Nat → Option Byte, SettingsRead q (decodeSettings codec q))
    ∧ ∀ s : State, ValidFrame s → s.rx.byte 1 = 0x62 → pay s 0 = some 0x02 →
      ∃ st, exec .rxDecode s = Responded (.decoded (.curSettings st)) s ∧ SettingsRead (pay s) st

/-- R174 with the offsets of R101: the same for sub-tag 0x03 and a RoomTemp record. -/
def Obligations.DecodedRoomTempFields : Prop :=
  (∀ q : Nat → Option Byte, RoomTempRead q (decodeRoomTemp codec q))
    ∧ ∀ s : State, ValidFrame s → s.rx.byte 1 = 0x62 → pay s 0 = some 0x03 →
      ∃ r, exec .rxDecode s = Responded (.decoded (.curRoomTemp r)) s ∧ RoomTempRead (pay s) r

/-- R180: RX_RESET empties the receive side from every state, leaves the transmit side, and makes both status bits false; issuing
it twice is issuing it once (R59). -/
def Obligations.RxResetResult : Prop :=
  (∀ (imm : Byte) (p : Port32), decodeCommand ⟨0x05#8 ++ imm, p⟩ =
      if imm = 0 then .ok .rxReset else .error .nonZeroReservedBits)
    ∧ ∀ s : State, ∃ t, exec .rxReset s = .next t
      ∧ t = { s with rx := ⟨Vector.replicate 32 0x00, 0⟩, response := some .ack }
      ∧ t.rx.complete = false ∧ t.rx.valid = false ∧ exec .rxReset t = .next t

/-- The six frame rows: what a received frame of each kind is answered with, for every payload and in every state (R171, R172,
R175, R176). That a frame row is an instruction is the model's choice (log entry 3). -/
def Obligations.FrameRowsRespond : Prop :=
  ∀ (p : List Byte) (s : State),
    exec (.frameConnect p) s = Responded (.decoded (.ignored .connect)) s
      ∧ exec (.frameSettingsWrite p) s = Responded (.decoded (.ignored .settingsWrite)) s
      ∧ exec (.frameInfoRequest p) s = Responded (.decoded (.ignored .infoRequest)) s
      ∧ exec (.frameStatusOk p) s = Responded (.decoded .statusOk) s
      ∧ exec (.frameStatusNotOk p) s = Responded (.decoded .statusNotOk) s
      ∧ exec (.frameCurSettings (0x02 :: p)) s =
          Responded (.decoded (.curSettings (decodeSettings codec fun k => (0x02 :: p)[k]?))) s
      ∧ exec (.frameCurSettings (0x03 :: p)) s =
          Responded (.decoded (.curRoomTemp (decodeRoomTemp codec fun k => (0x03 :: p)[k]?))) s
      ∧ exec (.frameCurSettings []) s = Responded (.decoded .curUnrecognizedSubKind) s
      ∧ ∀ tag : Byte, tag ≠ 0x02 → tag ≠ 0x03 →
          exec (.frameCurSettings (tag :: p)) s = Responded (.decoded .curUnrecognizedSubKind) s

/-- RX_DECODE, which is written over the buffer (R169), is the wire decoder (R86, R88) followed by the meaning of the frame it
finds at the front of the held bytes. That a frame row is an instruction with a meaning is the model's choice (log entry 3,
DESIGN CHOICE). -/
def Obligations.RxDecodeRunsTheHeldFrame : Prop :=
  ∀ s : State, s.rx.cursor ≤ 32 →
    (∀ i rest, decodeFrame (s.rx.held) = .ok (i, rest) → exec .rxDecode s = exec i s)
      ∧ (decodeFrame (s.rx.held) = .error .unrecognizedKind → exec .rxDecode s = Responded (.decoded .unrecognizedKind) s)
      ∧ (∀ r, decodeFrame (s.rx.held) = .error r → r ≠ .unrecognizedKind →
          exec .rxDecode s = Responded (.decoded .noMessage) s)

/-- R29: the transitions of the frame state machine under a pushed byte, and under RX_RESET. -/
def Obligations.FrameStateTransitions : Prop :=
  ∀ (s : State) (b : Byte), s.rx.cursor ≤ 32 → ∃ t, exec (.rxPush b) s = .next t
    ∧ (s.rx.frameState = .empty → b ≠ 0xFC → t.rx.frameState = .empty ∧ t.rx = s.rx)
    ∧ (s.rx.frameState = .empty → b = 0xFC → t.rx.frameState = .accumulating ∧ t.rx.cursor = 1)
    ∧ (s.rx.frameState = .accumulating → s.rx.cursor < 32 → t.rx.frameState ≠ .empty ∧
        (t.rx.frameState ≠ .accumulating ↔ 5 ≤ s.rx.cursor + 1 ∧ 6 + (t.rx.byte 4).toNat = s.rx.cursor + 1))
    ∧ (s.rx.frameState = .completeInvalid → s.rx.cursor < 32 → t.rx.frameState = .completeInvalid)
    ∧ (s.rx.frameState = .completeValid → s.rx.cursor < 32 → t.rx.frameState = .completeValid)
    ∧ (s.rx.cursor = 32 → s.rx.frameState ≠ .completeValid → t.rx.frameState = (if b = 0xFC then .accumulating else .empty))
    ∧ (s.rx.cursor = 32 → s.rx.frameState = .completeValid → t.rx.frameState =
        (if Config.fullValidPolicy = .drop then .completeValid else if b = 0xFC then .accumulating else .empty))
    ∧ (s.rx.cursor = 32 → s.rx.frameState = .accumulating → 26 < (s.rx.byte 4).toNat)
    ∧ ∃ u, exec .rxReset s = .next u ∧ u.rx.frameState = .empty

/-- R30, R165: a stale byte changes neither the frame's bytes, nor the status bits, nor what RX_DECODE answers. -/
def Obligations.CompleteFrameIsStable : Prop :=
  ∀ (s : State) (b : Byte), s.rx.complete = true → s.rx.cursor < 32 → ∃ t, exec (.rxPush b) s = .next t
    ∧ t.rx.cursor = s.rx.cursor + 1 ∧ t.rx.byte s.rx.cursor = b ∧ (∀ i < 6 + (s.rx.byte 4).toNat, t.rx.byte i = s.rx.byte i)
    ∧ t.rx.complete = true ∧ t.rx.valid = s.rx.valid ∧ t.rx.decoded codec = s.rx.decoded codec

/-- R178, R55: what the assembler answers depends on the cursor and the bytes below it alone, and for a valid frame on the bytes
of the frame alone: no byte past the frame is read. -/
def Obligations.ResponsesReadOnlyTheFrame : Prop :=
  ∀ s t : State, s.rx.cursor ≤ 32 → s.rx.complete = true → 6 + (s.rx.byte 4).toNat ≤ t.rx.cursor →
    (∀ i < 6 + (s.rx.byte 4).toNat, t.rx.byte i = s.rx.byte i) →
    t.rx.complete = true ∧ t.rx.valid = s.rx.valid ∧ t.rx.decoded codec = s.rx.decoded codec

/-- R183: noise without 0xFC leaves an Empty assembler Empty, so any frame after it, of a listed type or not (R168), is held whole
and valid; and after any noise at all, RX_RESET (word 0x0500) makes it so. The noise and the frame are issued as RX_PUSH
commands. -/
def Obligations.ResynchronizationAfterNoise : Prop :=
  ∀ (noise : List Byte) (mt : Byte) (payload : List Byte) (s : State), payload.length ≤ 26 →
    (s.rx.cursor = 0 → (∀ b ∈ noise, b ≠ 0xFC) →
        (runCommands (pushes noise) s).rx = s.rx
          ∧ (runCommands (pushes (noise ++ frame mt payload)) s).rx.held = frame mt payload
          ∧ (runCommands (pushes (noise ++ frame mt payload)) s).rx.valid = true)
      ∧ (runCommands (pushes noise ++ [⟨0x0500, 0⟩] ++ pushes (frame mt payload)) s).rx.held = frame mt payload
      ∧ (runCommands (pushes noise ++ [⟨0x0500, 0⟩] ++ pushes (frame mt payload)) s).rx.valid = true

/-- R184, generalized to every frame the block can hold: the bytes of a frame, pushed into an Empty assembler, are valid, and
RX_DECODE answers what the frame's row answers, and UnrecognizedKind for a type that has no row (R177). That a frame row is an
instruction with a meaning is the model's choice (log entry 3, DESIGN CHOICE). -/
def Obligations.PushedFrameIsDecoded : Prop :=
  ∀ (mt : Byte) (payload : List Byte) (s : State), payload.length ≤ 26 → s.rx.cursor = 0 →
    let t := runCommands (pushes (frame mt payload)) s
    t.rx.cursor = 6 + payload.length ∧ t.rx.held = frame mt payload ∧ t.rx.complete = true ∧ t.rx.valid = true ∧ t.tx = s.tx
      ∧ (∀ i : Instr, encode i = .wire (frame mt payload) → exec .rxDecode t = exec i t)
      ∧ (¬ UnlistedType mt → ∃ i : Instr, i.wf = true ∧ encode i = .wire (frame mt payload))
      ∧ (UnlistedType mt → exec .rxDecode t = Responded (.decoded .unrecognizedKind) t)

/-- R184: what each encode command writes, read out of the transmit buffer and pushed into an Empty assembler, is valid and
decodes to the kind that was sent, without its operands. -/
def Obligations.EncodedFramesLoopBack : Prop :=
  ∀ s : State, s.rx.cursor = 0 →
    (∀ t, exec .txConnect s = .next t →
      let u := runCommands (pushes (firstBytes t.tx.buf t.tx.len)) t
      u.rx.valid = true ∧ exec .rxDecode u = Responded (.decoded (.ignored .connect)) u)
    ∧ (∀ k t, exec (.txInfoReq k) s = .next t →
      let u := runCommands (pushes (firstBytes t.tx.buf t.tx.len)) t
      u.rx.valid = true ∧ exec .rxDecode u = Responded (.decoded (.ignored .infoRequest)) u)
    ∧ ∀ st t, exec (.txSettings st) s = .next t →
      let u := runCommands (pushes (firstBytes t.tx.buf t.tx.len)) t
      u.rx.valid = true ∧ exec .rxDecode u = Responded (.decoded (.ignored .settingsWrite)) u

/-- R244, D14: no decoded field is a zeroed or out-of-range value. Whatever the buffer holds, a decoded target temperature is in
16..31, a decoded room temperature in 10..41 and a decoded raw byte non-zero. -/
def Obligations.DecodedValuesAreReal : Prop :=
  ∀ (s t : State), exec .rxDecode s = .next t →
    (∀ st, t.response = some (.decoded (.curSettings st)) → st.wf = true ∧ ∀ d, st.temp = some d → 16 ≤ d ∧ d ≤ 31)
      ∧ ∀ r, t.response = some (.decoded (.curRoomTemp r)) →
        (∀ d, r.room = some d → 10 ≤ d ∧ d ≤ 41) ∧ ∀ v, r.raw = some v → v ≠ 0x00

/-! ## Invariants and independence -/

/-- The invariants of R22 to R24, R34, R56 and R223 hold at reset. -/
def Obligations.InvariantsHoldAtReset : Prop := State.reset.Inv

/-- Every step keeps them, from every state that has them. -/
def Obligations.EveryStepKeepsTheInvariants : Prop := ∀ s t : State, s.Inv → step s = .next t → t.Inv

/-- R31: an implementation with a running sum register, cleared on every reset and adding only the bytes below 5 + L, goes
through the same states and has the same `rx_valid`, over every sequence of bytes and resets from an Empty receive side. `SumRx` is
the model's own writing of that implementation (log entry 13, DEDUCED); it is no part of State. -/
def Obligations.RunningSumGivesTheSameValidity : Prop :=
  ∀ (p : FullValidPolicy) (es : List RxEvent) (r : Rx), r.cursor = 0 → r.Inv →
    let spec := es.foldl (fun t e => Rx.event p e t) r
    let impl := es.foldl (fun t e => SumRx.event p e t) (⟨r, 0⟩ : SumRx)
    impl.base = spec ∧ impl.valid = spec.valid

/-- R35, R37: the two sides share no state. An RX command leaves the transmit side and its effect depends on the receive side
alone; a TX command leaves the receive side, and so both status bits, and its effect depends on the transmit side alone; the
conversion commands leave both (R210, R37), and so do the six frame rows, which is the model's choice (log entry 3). -/
def Obligations.RxAndTxShareNoState : Prop :=
  (∀ i (s s' t t' : State), isRx i = true → s'.rx = s.rx → exec i s = .next t → exec i s' = .next t' →
      t.tx = s.tx ∧ t'.rx = t.rx ∧ t'.response = t.response)
    ∧ (∀ i (s s' t t' : State), isTx i = true → s'.tx = s.tx → exec i s = .next t → exec i s' = .next t' →
      t.rx = s.rx ∧ t'.tx = t.tx ∧ t'.response = t.response ∧ t.rx.complete = s.rx.complete ∧ t.rx.valid = s.rx.valid)
    ∧ ∀ i (s t : State), isRx i = false → isTx i = false → exec i s = .next t → SameBlock s t

/-- R62.3: RX and TX commands may interleave in any order without effect on one another. -/
def Obligations.RxAndTxCommandsCommute : Prop :=
  ∀ i j (s a b ab ba : State), isRx i = true → isTx j = true → exec i s = .next a → exec j a = .next ab →
    exec j s = .next b → exec i b = .next ba → SameBlock ab ba ∧ a.response = ba.response ∧ ab.response = b.response

/-- R59: the commands that read change no state but the response, and issued twice they give the same response twice. R59 lists
RX_COMPLETE, RX_VALID, RX_DECODE, TX_READ and the CV commands; that the six frame rows do the same is the model's choice (log
entry 3). -/
def Obligations.ReadsChangeNothing : Prop :=
  ∀ i (s : State), readsOnly i = true → ∃ v, exec i s = Responded v s ∧ ∀ t, exec i s = .next t → exec i t = .next t

/-! ## Checksum -/

/-- R120. -/
def Obligations.ChecksumFormula : Prop :=
  ∀ bs : List Byte, ((chk bs).toNat : Int) = ((0xFC : Int) - ((bs.map BitVec.toNat).sum % 256 : Nat)) % 256

/-- R121: the checksum test holds exactly when all bytes, the checksum included, sum to 0xFC modulo 256; and so a held frame with
its header constants is valid exactly when its 6 + L bytes do. -/
def Obligations.ValidityIsASumTest : Prop :=
  (∀ (c : Byte) (bs : List Byte), c = chk bs ↔ ((bs ++ [c]).map BitVec.toNat).sum % 256 = 0xFC)
    ∧ ∀ s : State, s.rx.cursor ≤ 32 → s.rx.complete = true → s.rx.byte 0 = 0xFC → s.rx.byte 2 = 0x01 → s.rx.byte 3 = 0x30 →
      (s.rx.valid = true ↔ ((firstBytes s.rx.buf (6 + (s.rx.byte 4).toNat)).map BitVec.toNat).sum % 256 = 0xFC)

/-- R122: flipping one bit of the type byte, of a header constant, of a payload byte or of the checksum of a valid frame makes it
invalid. -/
def Obligations.SingleBitFlipIsCaught : Prop :=
  ∀ (s : State) (j k : Nat), s.rx.cursor ≤ 32 → s.rx.valid = true → k < 8 →
    (j = 1 ∨ j = 2 ∨ j = 3 ∨ (5 ≤ j ∧ j ≤ 5 + (s.rx.byte 4).toNat)) →
    (⟨s.rx.buf.setIfInBounds j (s.rx.byte j ^^^ BitVec.ofNat 8 (2 ^ k)), s.rx.cursor⟩ : Rx).valid = false

/-! ## TX commands -/

/-- R212 (and R93): TX_CONNECT. -/
def Obligations.TxConnectResult : Prop :=
  (∀ (imm : Byte) (p : Port32), decodeCommand ⟨0x10#8 ++ imm, p⟩ =
      if imm = 0 then .ok .txConnect else .error .nonZeroReservedBits)
    ∧ ∀ s : State, ∃ t, exec .txConnect s = .next t ∧ Encoded s t [0xFC, 0x5A, 0x01, 0x30, 0x02, 0xCA, 0x01, 0xA8]

/-- R213 (and R94): TX_INFO_REQ for both kinds. -/
def Obligations.TxInfoReqResult : Prop :=
  (∀ (imm : Byte) (p : Port32), decodeCommand ⟨0x11#8 ++ imm, p⟩ =
      if imm = 0 then .ok (.txInfoReq .settings) else if imm = 1 then .ok (.txInfoReq .roomTemp)
      else .error .nonZeroReservedBits)
    ∧ ∀ s : State,
      (∃ t, exec (.txInfoReq .settings) s = .next t
        ∧ Encoded s t ([0xFC, 0x42, 0x01, 0x30, 0x10, 0x02] ++ List.replicate 15 0x00 ++ [0x7B]))
      ∧ ∃ t, exec (.txInfoReq .roomTemp) s = .next t
        ∧ Encoded s t ([0xFC, 0x42, 0x01, 0x30, 0x10, 0x03] ++ List.replicate 15 0x00 ++ [0x7A])

/-- R214 (with R79, R81, R95, R96, R97): TX_SETTINGS. The word and operand that spell it and those that are refused, and the frame
for every settings record, byte by byte. -/
def Obligations.TxSettingsResult : Prop :=
  (∀ (imm : Byte) (p : Port32), imm ≠ 0 → decodeCommand ⟨0x12#8 ++ imm, p⟩ = .error .nonZeroReservedBits)
    ∧ (∀ p : Port32,
      (ReservedPortBits ⟨0x1200, p⟩ → decodeCommand ⟨0x1200, p⟩ = .error .nonZeroReservedBits)
      ∧ (¬ ReservedPortBits ⟨0x1200, p⟩ → ReservedIndex ⟨0x1200, p⟩ → decodeCommand ⟨0x1200, p⟩ = .error .reservedEnumIndex)
      ∧ (¬ ReservedPortBits ⟨0x1200, p⟩ → ¬ ReservedIndex ⟨0x1200, p⟩ →
          ∃ st, Layout p.toNat st ∧ st.wf = true ∧ decodeCommand ⟨0x1200, p⟩ = .ok (.txSettings st)))
    ∧ ∀ (st : Settings) (s : State), ∃ t, exec (.txSettings st) s = .next t
      ∧ Encoded s t (settingsBody st ++ [chk (settingsBody st)])

/-- R97, R216: the control-bits byte at frame offset 6, bit by bit. -/
def Obligations.ControlBitsByField : Prop :=
  ∀ (st : Settings) (s : State), ∃ t, exec (.txSettings st) s = .next t
    ∧ (t.tx.byte 6).getLsbD 0 = st.power.isSome ∧ (t.tx.byte 6).getLsbD 1 = st.mode.isSome
    ∧ (t.tx.byte 6).getLsbD 2 = st.temp.isSome ∧ (t.tx.byte 6).getLsbD 3 = st.fan.isSome
    ∧ (t.tx.byte 6).getLsbD 4 = st.vane.isSome ∧ (t.tx.byte 6).getLsbD 5 = false ∧ (t.tx.byte 6).getLsbD 6 = false
    ∧ (t.tx.byte 6).getLsbD 7 = st.wideVane.isSome

/-- R217: a valid temperature outside 16..31 is not refused; its data byte is 0x00 and its control bit is set. -/
def Obligations.OutOfRangeTemperatureIsSent : Prop :=
  (∀ st : Settings, st.wf = true → decodeCommand ⟨0x1200, packSettings st⟩ = .ok (.txSettings st))
    ∧ ∀ (st : Settings) (d : Int) (s : State), st.temp = some d → d < 16 ∨ 31 < d →
      ∃ t, exec (.txSettings st) s = .next t ∧ t.tx.byte 10 = 0x00 ∧ (t.tx.byte 6).getLsbD 2 = true

/-- R215: the control bits tell apart what the data bytes do not. Two settings records whose temperatures are in 16..31 or invalid
give the same frame only when they are the same record. -/
def Obligations.SettingsFrameDeterminesTheRecord : Prop :=
  ∀ (a b : Settings) (s t : State), (∀ d, a.temp = some d → 16 ≤ d ∧ d ≤ 31) → (∀ d, b.temp = some d → 16 ≤ d ∧ d ≤ 31) →
    exec (.txSettings a) s = .next t → exec (.txSettings b) s = .next t → a = b

/-- R218: TX_READ; past `tx_len` it reads 0x00. -/
def Obligations.TxReadResult : Prop :=
  (∀ (imm : Byte) (p : Port32), decodeCommand ⟨0x13#8 ++ imm, p⟩ =
      if imm.toNat < 32 then .ok (.txRead (BitVec.ofNat 5 imm.toNat)) else .error .nonZeroReservedBits)
    ∧ (∀ (i : BitVec 5) (s : State), exec (.txRead i) s = Responded (.byte (s.tx.byte i.toNat)) s)
    ∧ ∀ (i : BitVec 5) (s : State), s.tx.Inv → s.tx.len ≤ i.toNat → exec (.txRead i) s = Responded (.byte 0x00) s

/-! ## Conversions -/

/-- R219 with R123. -/
def Obligations.CvT2bResult : Prop :=
  (∀ (imm : Byte) (p : Port32), decodeCommand ⟨0x20#8 ++ imm, p⟩ = .ok (.cvT2b imm.toInt))
    ∧ ∀ (d : Int) (s : State),
      (16 ≤ d → d ≤ 31 → exec (.cvT2b d) s = Responded (.byte (BitVec.ofInt 8 (31 - d))) s)
        ∧ (d < 16 ∨ 31 < d → exec (.cvT2b d) s = Responded (.byte 0x00) s)

/-- R220 with R124. -/
def Obligations.CvB2tResult : Prop :=
  (∀ (imm : Byte) (p : Port32), decodeCommand ⟨0x21#8 ++ imm, p⟩ = .ok (.cvB2t imm))
    ∧ ∀ (b : Byte) (s : State),
      (b.toNat ≤ 0x0F → exec (.cvB2t b) s = Responded (.byte (BitVec.ofNat 8 (31 - b.toNat))) s)
        ∧ (0x0F < b.toNat → exec (.cvB2t b) s = Responded (.byte 0x00) s)

/-- R221 with R125. -/
def Obligations.CvR2bResult : Prop :=
  (∀ (imm : Byte) (p : Port32), decodeCommand ⟨0x22#8 ++ imm, p⟩ = .ok (.cvR2b imm.toInt))
    ∧ ∀ (d : Int) (s : State),
      (10 ≤ d → d ≤ 41 → exec (.cvR2b d) s = Responded (.byte (BitVec.ofInt 8 (d - 10))) s)
        ∧ (d < 10 ∨ 41 < d → exec (.cvR2b d) s = Responded (.byte 0x00) s)

/-- R222 with R126. -/
def Obligations.CvB2rResult : Prop :=
  (∀ (imm : Byte) (p : Port32), decodeCommand ⟨0x23#8 ++ imm, p⟩ = .ok (.cvB2r imm))
    ∧ ∀ (b : Byte) (s : State),
      (b.toNat ≤ 0x1F → exec (.cvB2r b) s = Responded (.byte (BitVec.ofNat 8 (b.toNat + 10))) s)
        ∧ (0x1F < b.toNat → exec (.cvB2r b) s = Responded (.byte 0x00) s)

/-- R127: the round trips of the temperature conversions, and that they end at their domains. -/
def Obligations.TemperatureRoundTrips : Prop :=
  (∀ d : Int, 16 ≤ d → d ≤ 31 → byteToTemp (tempToByte d) = d)
    ∧ (∀ d : Int, d < 16 ∨ 31 < d → tempToByte d = 0x00)
    ∧ (∀ d : Int, 10 ≤ d → d ≤ 41 → byteToRoomTemp (roomTempToByte d) = d)
    ∧ (∀ b : Byte, b.toNat ≤ 0x0F → tempToByte (byteToTemp b) = b)
    ∧ (∀ b : Byte, b.toNat ≤ 0x1F → roomTempToByte (byteToRoomTemp b) = b)
    ∧ byteToTemp (tempToByte 40) = 31 ∧ roomTempToByte 9 = roomTempToByte 10

/-- R103 to R107: the wire codes the block is built with. -/
def Obligations.WireCodeTables : Prop :=
  (∀ v, codec.power.wire v = powerWire v) ∧ (∀ v, codec.mode.wire v = modeWire v) ∧ (∀ v, codec.fan.wire v = fanWire v)
    ∧ (∀ v, codec.vane.wire v = vaneWire v) ∧ ∀ v, codec.wideVane.wire v = wideVaneWire v

/-- R129, for every deployment: with any injective table of wire codes, `unwire` inverts `wire`, and answers `none` exactly on the
bytes that are no code. -/
def Obligations.UnwireInvertsWire : Prop :=
  (∀ (t : Codes Power), Function.Injective t.wire → ∀ b v, unwire allPower t b = some v ↔ t.wire v = b)
    ∧ (∀ (t : Codes Mode), Function.Injective t.wire → ∀ b v, unwire allMode t b = some v ↔ t.wire v = b)
    ∧ (∀ (t : Codes Fan), Function.Injective t.wire → ∀ b v, unwire allFan t b = some v ↔ t.wire v = b)
    ∧ (∀ (t : Codes Vane), Function.Injective t.wire → ∀ b v, unwire allVane t b = some v ↔ t.wire v = b)
    ∧ ∀ (t : Codes WideVane), Function.Injective t.wire → ∀ b v, unwire allWideVane t b = some v ↔ t.wire v = b

/-- R131, R132: settings equality compares the fields valid in both records; it is reflexive and symmetric, and not transitive. -/
def Obligations.SettingsEquality : Prop :=
  (∀ a b : Settings, settingsEq a b = true ↔
      (∀ x y, a.power = some x → b.power = some y → x = y) ∧ (∀ x y, a.mode = some x → b.mode = some y → x = y)
      ∧ (∀ x y, a.fan = some x → b.fan = some y → x = y) ∧ (∀ x y, a.vane = some x → b.vane = some y → x = y)
      ∧ (∀ x y, a.wideVane = some x → b.wideVane = some y → x = y) ∧ (∀ x y, a.temp = some x → b.temp = some y → x = y))
    ∧ (∀ a : Settings, settingsEq a a = true) ∧ (∀ a b : Settings, settingsEq a b = settingsEq b a)
    ∧ settingsEq { temp := some 20 } {} = true ∧ settingsEq {} { temp := some 25 } = true
    ∧ settingsEq { temp := some 20 } { temp := some 25 } = false

/-- R142, R143: a string conversion succeeds exactly on the canonical strings, and fails with the documented default; R144: a failed
conversion gives an invalid field. -/
def Obligations.StringConversions : Prop :=
  (∀ v, fromStringPower codec (codec.power.name v) = (v, true)) ∧ (∀ v, fromStringMode codec (codec.mode.name v) = (v, true))
    ∧ (∀ v, fromStringFan codec (codec.fan.name v) = (v, true)) ∧ (∀ v, fromStringVane codec (codec.vane.name v) = (v, true))
    ∧ (∀ v, fromStringWideVane codec (codec.wideVane.name v) = (v, true))
    ∧ (∀ x, (∀ v, codec.power.name v ≠ x) → fromStringPower codec x = (.off, false))
    ∧ (∀ x, (∀ v, codec.mode.name v ≠ x) → fromStringMode codec x = (.heat, false))
    ∧ (∀ x, (∀ v, codec.fan.name v ≠ x) → fromStringFan codec x = (.f1, false))
    ∧ (∀ x, (∀ v, codec.vane.name v ≠ x) → fromStringVane codec x = (.auto, false))
    ∧ (∀ x, (∀ v, codec.wideVane.name v ≠ x) → fromStringWideVane codec x = (.fullLeft, false))
    ∧ ∀ (α : Type) (v : α), parsedField (v, false) = none ∧ parsedField (v, true) = some v

/-- R140, R141: the canonical strings in index order, and the sentinel for an index that names no value. -/
def Obligations.CanonicalStrings : Prop :=
  (List.range 2).map (toStringPower codec) = ["off", "on"]
    ∧ (List.range 8).map (toStringMode codec) =
      ["heat", "dry", "cool", "fan", "auto", "undefined", "undefined", "undefined"]
    ∧ (List.range 8).map (toStringFan codec) = ["auto", "quiet", "1", "2", "3", "4", "undefined", "undefined"]
    ∧ (List.range 8).map (toStringVane codec) = ["auto", "1", "2", "3", "4", "5", "swing", "undefined"]
    ∧ (List.range 8).map (toStringWideVane codec) =
      ["full-left", "half-left", "center", "half-right", "full-right", "left-and-right", "swing", "undefined"]
end

