-- ==== Sys2Proof/Laws/State.lean ====
section
/-! SUPPORT. Laws/State: one lemma per field per update of the state and of its two sides, each true by rfl, and the outcome of
`respond`. -/

namespace Sys2Proof.Machine

@[simp] theorem Rx.empty_buf : Rx.empty.buf = zeroBuffer rxCap := rfl
@[simp] theorem Rx.empty_cursor : Rx.empty.cursor = 0 := rfl
@[simp] theorem Rx.clear_eq (r : Rx) : r.clear = Rx.empty := rfl
@[simp] theorem Rx.append_buf (b : Byte) (r : Rx) : (r.append b).buf = r.buf.setIfInBounds r.cursor b := rfl
@[simp] theorem Rx.append_cursor (b : Byte) (r : Rx) : (r.append b).cursor = r.cursor + 1 := rfl
@[simp] theorem codec_txCap : codec.txCap = 32 := rfl
@[simp] theorem Tx.blank_buf (n : Nat) : (Tx.blank n).buf = zeroBuffer n := rfl
@[simp] theorem Tx.blank_len (n : Nat) : (Tx.blank n).len = 0 := rfl
@[simp] theorem emit_buf (c : Params) (mt : Byte) (pl : List Byte) : (emit c mt pl).buf = loadBuffer c.txCap (frameBytes mt pl) := rfl
@[simp] theorem emit_len (c : Params) (mt : Byte) (pl : List Byte) : (emit c mt pl).len = 6 + pl.length := rfl

@[simp] theorem markRefusal_rx (r : RefuseReason) (s : State) : (markRefusal r s).rx = s.rx := rfl
@[simp] theorem markRefusal_tx (r : RefuseReason) (s : State) : (markRefusal r s).tx = s.tx := rfl
@[simp] theorem markRefusal_response (r : RefuseReason) (s : State) : (markRefusal r s).response = none := rfl
@[simp] theorem markRefusal_refusalMark (r : RefuseReason) (s : State) : (markRefusal r s).refusalMark = some (s.refusalMark.getD r) := rfl
@[simp] theorem markRefusal_pending (r : RefuseReason) (s : State) : (markRefusal r s).pending = s.pending := rfl

@[simp] theorem reset_rx : (State.reset).rx = Rx.empty := rfl
@[simp] theorem reset_tx : (State.reset).tx = Tx.blank codec.txCap := rfl
@[simp] theorem reset_response : (State.reset).response = none := rfl
@[simp] theorem reset_refusalMark : (State.reset).refusalMark = none := rfl
@[simp] theorem reset_pending : (State.reset).pending = [] := rfl

@[simp] theorem respond_eq (v : Response) (s : State) : respond v s = .next { s with response := some v } := rfl

end Sys2Proof.Machine
end

