-- ==== Sys2Proof/Laws/Buffer.lean ====
section
/-! SUPPORT. Laws/Buffer: reading a buffer after each operation that writes one. -/

namespace Sys2Proof.Machine

variable {size : Nat}

theorem byteAt_eq_getElem (buf : Buffer size) {i : Nat} (h : i < size) : byteAt buf i = buf[i] := by
  simp [byteAt, h]

/-- A zeroed buffer reads 0x00 everywhere. -/
@[simp] theorem byteAt_zeroBuffer (i : Nat) : byteAt (zeroBuffer size) i = 0x00 := by
  by_cases h : i < size <;> simp [byteAt, zeroBuffer, h]

/-- Reading a buffer after one byte is written to it. -/
theorem byteAt_set (buf : Buffer size) (c : Nat) (b : Byte) {i : Nat} (h : i < size) :
    byteAt (buf.setIfInBounds c b) i = if i = c then b else byteAt buf i := by
  by_cases e : i = c
  · subst e; simp [byteAt, h]
  · simp [byteAt, h, e, Ne.symm e]

/-- A loaded buffer reads the loaded bytes and 0x00 after them. -/
theorem byteAt_loadBuffer (bs : List Byte) {i : Nat} (h : i < size) : byteAt (loadBuffer size bs) i = bs.getD i 0x00 := by
  have hlen : i < (bs ++ List.replicate size (0 : Byte)).length := by rw [List.length_append, List.length_replicate]; omega
  have : byteAt (loadBuffer size bs) i = (bs ++ List.replicate size (0 : Byte))[i] := by
    rw [byteAt_eq_getElem _ h]
    exact List.getElem_take
  rw [this]
  by_cases e : i < bs.length
  · rw [List.getElem_append_left e]; simp [e]
  · rw [List.getElem_append_right (by omega), List.getElem_replicate]; simp [e]

theorem firstBytes_length (buf : Buffer size) {n : Nat} (h : n ≤ size) : (firstBytes buf n).length = n := by
  simp [firstBytes, h]

theorem firstBytes_getElem? (buf : Buffer size) {n i : Nat} (h : i < n) (hn : n ≤ size) :
    (firstBytes buf n)[i]? = some (byteAt buf i) := by
  have hi : i < size := by omega
  simp [firstBytes, byteAt, h, hi]

/-- Two buffers that read alike below `n` have the same first `n` bytes. -/
theorem firstBytes_congr {b1 b2 : Buffer size} {n : Nat} (hn : n ≤ size) (h : ∀ i < n, byteAt b1 i = byteAt b2 i) :
    firstBytes b1 n = firstBytes b2 n := by
  apply List.ext_getElem?
  intro i
  by_cases hi : i < n
  · rw [firstBytes_getElem? b1 hi hn, firstBytes_getElem? b2 hi hn, h i hi]
  · rw [List.getElem?_eq_none, List.getElem?_eq_none] <;> simp [firstBytes_length _ hn] <;> omega

/-- Two buffers that read alike everywhere are equal. -/
theorem buffer_ext {b1 b2 : Buffer size} (h : ∀ i < size, byteAt b1 i = byteAt b2 i) : b1 = b2 := by
  ext i hi
  have := h i hi
  rw [byteAt_eq_getElem b1 hi, byteAt_eq_getElem b2 hi] at this
  rw [this]

/-- Writing at or above `n` leaves the first `n` bytes. -/
theorem firstBytes_set_of_le (buf : Buffer size) {c n : Nat} (b : Byte) (h : n ≤ c) (hn : n ≤ size) :
    firstBytes (buf.setIfInBounds c b) n = firstBytes buf n := by
  apply firstBytes_congr hn
  intro i hi
  rw [byteAt_set _ _ _ (by omega), if_neg (by omega)]

/-- Writing at the end of the first `n` bytes appends. -/
theorem firstBytes_set_succ (buf : Buffer size) {n : Nat} (b : Byte) (h : n < size) :
    firstBytes (buf.setIfInBounds n b) (n + 1) = firstBytes buf n ++ [b] := by
  apply List.ext_getElem?
  intro i
  by_cases hi : i < n
  · rw [firstBytes_getElem? _ (by omega) (by omega), byteAt_set _ _ _ (by omega), if_neg (by omega),
      List.getElem?_append_left (by rw [firstBytes_length _ (by omega)]; exact hi), firstBytes_getElem? _ hi (by omega)]
  · by_cases e : i = n
    · subst e
      rw [firstBytes_getElem? _ (by omega) (by omega), byteAt_set _ _ _ h, if_pos rfl,
        List.getElem?_append_right (by rw [firstBytes_length _ (by omega)])]
      simp [firstBytes_length _ (Nat.le_of_lt h)]
    · rw [List.getElem?_eq_none, List.getElem?_eq_none]
      · simp [firstBytes_length _ (Nat.le_of_lt h)]; omega
      · rw [firstBytes_length _ (by omega)]; omega

/-- The first bytes of a loaded buffer are the loaded bytes. -/
theorem firstBytes_loadBuffer (bs : List Byte) {n : Nat} (hn : n ≤ bs.length) (h : bs.length ≤ size) :
    firstBytes (loadBuffer size bs) n = bs.take n := by
  apply List.ext_getElem?
  intro i
  by_cases hi : i < n
  · rw [firstBytes_getElem? _ hi (by omega), byteAt_loadBuffer _ (by omega), List.getElem?_take_of_lt hi,
      List.getD_eq_getElem?_getD, List.getElem?_eq_getElem (by omega : i < bs.length)]
    simp
  · rw [List.getElem?_eq_none, List.getElem?_eq_none]
    · simp; omega
    · rw [firstBytes_length _ (by omega)]; omega

end Sys2Proof.Machine
end

