-- ==== Sys2Proof/Laws/Checksum.lean ====
section
/-! SUPPORT. Laws/Checksum: the checksum as arithmetic modulo 256, and the shape of a frame. -/

namespace Sys2Proof.Machine

@[simp] theorem byteSum_nil : byteSum [] = 0 := rfl
@[simp] theorem byteSum_cons (b : Byte) (bs : List Byte) : byteSum (b :: bs) = b.toNat + byteSum bs := by simp [byteSum]
@[simp] theorem byteSum_append (xs ys : List Byte) : byteSum (xs ++ ys) = byteSum xs + byteSum ys := by simp [byteSum]

/-- The checksum is the base minus the sum, modulo 256. -/
theorem chk_toNat (bs : List Byte) : (chk bs).toNat = (0xFC + 256 - byteSum bs % 256) % 256 := by
  have h : byteSum bs % 256 < 256 := Nat.mod_lt _ (by decide)
  simp only [chk, Wire.chkBase, BitVec.toNat_ofInt]
  omega

/-- The checksum test restated: the bytes with their checksum sum to 0xFC. -/
theorem eq_chk_iff (c : Byte) (bs : List Byte) : c = chk bs ↔ (byteSum bs + c.toNat) % 256 = 0xFC := by
  have hc := c.isLt
  rw [← BitVec.toNat_inj, chk_toNat]
  omega

@[simp] theorem frameBytes_length (mt : Byte) (pl : List Byte) : (frameBytes mt pl).length = 6 + pl.length := by
  simp [frameBytes]; omega

/-- The five header bytes, the payload and the checksum of a frame. -/
theorem frameBytes_eq (mt : Byte) (pl : List Byte) :
    frameBytes mt pl = [0xFC, mt, 0x01, 0x30, BitVec.ofNat 8 pl.length] ++ pl
      ++ [chk ([0xFC, mt, 0x01, 0x30, BitVec.ofNat 8 pl.length] ++ pl)] := rfl

end Sys2Proof.Machine
end

