-- ==== Sys2Proof/Laws/Decode.lean ====
section
/-! SUPPORT. Laws/Decode: the fields of an assembled command word, the packed fields of `settings_in`, and the wire decoder on
an encoded frame. -/

namespace Sys2Proof

open Sys2Proof.Machine

@[simp] theorem cmdOp_cmdWord (op imm : Byte) : cmdOp (cmdWord op imm) = op := by
  simp only [cmdOp, cmdWord]; exact BitVec.extractLsb'_append_eq_left

@[simp] theorem cmdImm_cmdWord (op imm : Byte) : cmdImm (cmdWord op imm) = imm := by
  simp only [cmdImm, cmdWord]; exact BitVec.extractLsb'_append_eq_right

/-- A word is its two fields. -/
theorem cmdWord_fields (w : CmdWord) : cmdWord (cmdOp w) (cmdImm w) = w := by
  simp only [cmdOp, cmdImm, cmdWord]
  apply BitVec.eq_of_toNat_eq
  have := w.isLt
  simp only [BitVec.toNat_append, BitVec.extractLsb'_toNat, Nat.shiftRight_eq_div_pow, Nat.shiftLeft_eq]
  rw [← Nat.shiftLeft_eq, ← Nat.shiftLeft_add_eq_or_of_lt (by omega), Nat.shiftLeft_eq]
  omega

/-- A mask over a command word masks its two fields. -/
theorem cmdWord_and (a b c d : Byte) : cmdWord a b &&& cmdWord c d = cmdWord (a &&& c) (b &&& d) := by
  simp only [cmdWord]
  apply BitVec.eq_of_getLsbD_eq
  intro i hi
  simp only [BitVec.getLsbD_and, BitVec.getLsbD_append]
  split <;> simp

theorem cmdWord_inj {a b c d : Byte} : cmdWord a b = cmdWord c d ↔ a = c ∧ b = d := by
  constructor
  · intro h
    have h1 := congrArg cmdOp h
    have h2 := congrArg cmdImm h
    rw [cmdOp_cmdWord, cmdOp_cmdWord] at h1
    rw [cmdImm_cmdWord, cmdImm_cmdWord] at h2
    exact ⟨h1, h2⟩
  · rintro ⟨rfl, rfl⟩; rfl

/-- The encoding of a frame instruction is the frame of its message type. -/
theorem encode_frameOfType {mt : Byte} {pl : List Byte} {i : Instr} (h : frameOfType mt pl = some i) :
    encode i = .wire (frameBytes mt pl) ∧ (i.wf = payloadFits pl) := by
  unfold frameOfType at h
  repeat' split at h
  all_goals first
    | (injection h with h; subst h; rename_i e; subst e; exact ⟨rfl, rfl⟩)
    | cases h

/-- A temperature that fits a byte is read back from it (R78). -/
theorem toInt_ofInt_of_fits {d : Int} (h : tempFits d = true) : (BitVec.ofInt 8 d).toInt = d := by
  simp only [tempFits, Bool.and_eq_true, decide_eq_true_eq] at h
  rw [BitVec.toInt_ofInt]
  simp only [Int.bmod]
  omega

theorem toInt_fits (b : Byte) : tempFits b.toInt = true := by
  have h1 := b.toInt_lt
  have h2 := b.le_toInt
  simp only [tempFits, Bool.and_eq_true, decide_eq_true_eq]
  omega

theorem sext8_tempCode {d : Int} (h : tempFits d = true) : sext8 (tempCode d) = d := by
  simp only [sext8, tempCode, BitVec.ofNat_toNat, BitVec.setWidth_eq]
  exact toInt_ofInt_of_fits h

theorem tempCode_lt (d : Int) : tempCode d < 256 := (BitVec.ofInt 8 d).isLt

/-- An enum value is found at its index. -/
theorem allPower_indexOf (v : Power) : allPower[indexOf allPower v]? = some v := by cases v <;> rfl
theorem allMode_indexOf (v : Mode) : allMode[indexOf allMode v]? = some v := by cases v <;> rfl
theorem allFan_indexOf (v : Fan) : allFan[indexOf allFan v]? = some v := by cases v <;> rfl
theorem allVane_indexOf (v : Vane) : allVane[indexOf allVane v]? = some v := by cases v <;> rfl
theorem allWideVane_indexOf (v : WideVane) : allWideVane[indexOf allWideVane v]? = some v := by cases v <;> rfl

theorem indexOf_power_lt (v : Power) : indexOf allPower v < 2 := by cases v <;> decide
theorem indexOf_mode_lt (v : Mode) : indexOf allMode v < 8 := by cases v <;> decide
theorem indexOf_fan_lt (v : Fan) : indexOf allFan v < 8 := by cases v <;> decide
theorem indexOf_vane_lt (v : Vane) : indexOf allVane v < 8 := by cases v <;> decide
theorem indexOf_wideVane_lt (v : WideVane) : indexOf allWideVane v < 8 := by cases v <;> decide

/-- A packed field as a valid bit and a value below `2 ^ width`. -/
theorem packField_bounds {α : Type} (f : Option α) (code : α → Nat) (n : Nat) (h : ∀ v, code v < n) (hn : 0 < n) :
    ∃ a c, c < n ∧ (∀ bit, packValid f bit = a * 2 ^ bit) ∧ (∀ lo, packValue f code lo = c * 2 ^ lo)
      ∧ ((f = none ∧ a = 0 ∧ c = 0) ∨ (∃ v, f = some v ∧ a = 1 ∧ c = code v)) := by
  cases f with
  | none => exact ⟨0, 0, hn, by simp [packValid], by simp [packValue], .inl ⟨rfl, rfl, rfl⟩⟩
  | some v => exact ⟨1, code v, h v, by simp [packValid], by simp [packValue], .inr ⟨v, rfl, rfl, rfl⟩⟩

/-- Reading back a field whose valid bit and index bits are known. -/
theorem unpackField_of_bits {α : Type} {all : List α} {w bit width a c : Nat} {f : Option α} {code : α → Nat}
    (ha : bitsAt w bit 1 = a) (hc : bitsAt w (bit + 1) width = c)
    (h : (f = none ∧ a = 0 ∧ c = 0) ∨ (∃ v, f = some v ∧ a = 1 ∧ c = code v)) (hall : ∀ v, all[code v]? = some v) :
    unpackField all w bit width = .ok f := by
  rcases h with ⟨rfl, h0, -⟩ | ⟨v, rfl, h1, hv⟩
  · simp [unpackField, ha, h0]
  · simp [unpackField, ha, hc, h1, hv, hall]

/-- `settings_in` carries every settings record whose temperature fits (R77, R78). -/
theorem unpack_pack {st : Settings} (h : st.wf = true) : unpackSettings (packSettings st) = .ok st := by
  obtain ⟨power, mode, fan, vane, wideVane, temp⟩ := st
  obtain ⟨a0, c0, l0, v0, w0, k0⟩ := packField_bounds power (indexOf allPower) 2 indexOf_power_lt (by decide)
  obtain ⟨a1, c1, l1, v1, w1, k1⟩ := packField_bounds mode (indexOf allMode) 8 indexOf_mode_lt (by decide)
  obtain ⟨a2, c2, l2, v2, w2, k2⟩ := packField_bounds fan (indexOf allFan) 8 indexOf_fan_lt (by decide)
  obtain ⟨a3, c3, l3, v3, w3, k3⟩ := packField_bounds vane (indexOf allVane) 8 indexOf_vane_lt (by decide)
  obtain ⟨a4, c4, l4, v4, w4, k4⟩ := packField_bounds wideVane (indexOf allWideVane) 8 indexOf_wideVane_lt (by decide)
  obtain ⟨a5, c5, l5, v5, w5, k5⟩ := packField_bounds temp tempCode 256 tempCode_lt (by decide)
  have b0 : a0 < 2 := by rcases k0 with ⟨-, h, -⟩ | ⟨_, -, h, -⟩ <;> omega
  have b1 : a1 < 2 := by rcases k1 with ⟨-, h, -⟩ | ⟨_, -, h, -⟩ <;> omega
  have b2 : a2 < 2 := by rcases k2 with ⟨-, h, -⟩ | ⟨_, -, h, -⟩ <;> omega
  have b3 : a3 < 2 := by rcases k3 with ⟨-, h, -⟩ | ⟨_, -, h, -⟩ <;> omega
  have b4 : a4 < 2 := by rcases k4 with ⟨-, h, -⟩ | ⟨_, -, h, -⟩ <;> omega
  have b5 : a5 < 2 := by rcases k5 with ⟨-, h, -⟩ | ⟨_, -, h, -⟩ <;> omega
  have hw : (packSettings ⟨power, mode, fan, vane, wideVane, temp⟩).toNat
      = a0 + c0 * 2 + a1 * 4 + c1 * 8 + a2 * 64 + c2 * 128 + a3 * 1024 + c3 * 2048 + a4 * 16384 + c4 * 32768
        + a5 * 262144 + c5 * 524288 := by
    simp only [packSettings, packSettingsNat, v0, w0, v1, w1, v2, w2, v3, w3, v4, w4, v5, w5, BitVec.toNat_ofNat]
    omega
  generalize (packSettings ⟨power, mode, fan, vane, wideVane, temp⟩) = port at hw
  have hres : ¬ bitsAt port.toNat 27 5 ≠ 0 := by simp only [bitsAt, hw]; omega
  have e0 := unpackField_of_bits (w := port.toNat) (bit := 0) (width := 1) (a := a0) (c := c0)
    (by simp only [bitsAt, hw]; omega) (by simp only [bitsAt, hw]; omega) k0 allPower_indexOf
  have e1 := unpackField_of_bits (w := port.toNat) (bit := 2) (width := 3) (a := a1) (c := c1)
    (by simp only [bitsAt, hw]; omega) (by simp only [bitsAt, hw]; omega) k1 allMode_indexOf
  have e2 := unpackField_of_bits (w := port.toNat) (bit := 6) (width := 3) (a := a2) (c := c2)
    (by simp only [bitsAt, hw]; omega) (by simp only [bitsAt, hw]; omega) k2 allFan_indexOf
  have e3 := unpackField_of_bits (w := port.toNat) (bit := 10) (width := 3) (a := a3) (c := c3)
    (by simp only [bitsAt, hw]; omega) (by simp only [bitsAt, hw]; omega) k3 allVane_indexOf
  have e4 := unpackField_of_bits (w := port.toNat) (bit := 14) (width := 3) (a := a4) (c := c4)
    (by simp only [bitsAt, hw]; omega) (by simp only [bitsAt, hw]; omega) k4 allWideVane_indexOf
  have f5 : bitsAt port.toNat 18 1 = a5 := by simp only [bitsAt, hw]; omega
  have g5 : bitsAt port.toNat 19 8 = c5 := by simp only [bitsAt, hw]; omega
  have e5 : unpackTemp port.toNat = temp := by
    rcases k5 with ⟨rfl, h0, -⟩ | ⟨d, rfl, h1, hd⟩
    · simp [unpackTemp, f5, h0]
    · simp [unpackTemp, f5, g5, h1, hd, sext8_tempCode (d := d) h]
  simp only [unpackSettings, if_neg hres, e0, e1, e2, e3, e4, e5]

/-- The wire decoder on the bytes of a frame of any type, whatever bytes follow it. -/
theorem decodeFrame_frameBytes_eq (mt : Byte) {pl : List Byte} (rest : List Byte) (hl : pl.length ≤ 26) :
    decodeFrame (frameBytes mt pl ++ rest) = match frameOfType mt pl with
      | some i => .ok (i, rest)
      | none => .error .unrecognizedKind := by
  have hL : (BitVec.ofNat 8 pl.length).toNat = pl.length := by simp; omega
  rw [frameBytes_eq]
  simp only [List.cons_append, List.nil_append, List.append_assoc, decodeFrame, hL, Wire.start, Wire.hdr2, Wire.hdr3]
  rw [if_neg (by simp; omega)]
  have e1 : (pl ++ chk (0xFC :: mt :: 0x01 :: 0x30 :: BitVec.ofNat 8 pl.length :: pl) :: rest).take pl.length = pl := by
    simp
  have e2 : (pl ++ chk (0xFC :: mt :: 0x01 :: 0x30 :: BitVec.ofNat 8 pl.length :: pl) :: rest)[pl.length]?
      = some (chk (0xFC :: mt :: 0x01 :: 0x30 :: BitVec.ofNat 8 pl.length :: pl)) := by simp
  rw [e1, e2, if_pos (by simp)]
  cases frameOfType mt pl <;> simp

/-- The wire decoder on the bytes of a frame of a listed type. -/
theorem decodeFrame_frameBytes {mt : Byte} {pl : List Byte} {i : Instr} (rest : List Byte) (hl : pl.length ≤ 26)
    (hi : frameOfType mt pl = some i) : decodeFrame (frameBytes mt pl ++ rest) = .ok (i, rest) := by
  rw [decodeFrame_frameBytes_eq mt rest hl, hi]

end Sys2Proof
end

