-- ==== Sys2Proof/Laws/Rx.lean ====
section
/-! SUPPORT. Laws/Rx: everything a pushed byte can do, and that the receive-side operations keep the receive-side invariant. -/

namespace Sys2Proof.Machine

/-- The three things a byte against the empty-state rule or an append can be. -/
theorem Rx.take_cases (b : Byte) (r : Rx) :
    (r.cursor = 0 ∧ b ≠ 0xFC ∧ r.take b = r) ∨ (r.cursor = 0 ∧ b = 0xFC ∧ r.take b = r.append b)
      ∨ (r.cursor ≠ 0 ∧ r.take b = r.append b) := by
  by_cases h : r.cursor = 0
  · by_cases hb : b = 0xFC
    · exact .inr (.inl ⟨h, hb, by rw [Rx.take, if_pos h, if_pos hb]⟩)
    · exact .inl ⟨h, hb, by rw [Rx.take, if_pos h, if_neg hb]⟩
  · exact .inr (.inr ⟨h, by rw [Rx.take, if_neg h]⟩)

/-- Everything RX_PUSH can do (R29): ignore the byte, append it, drop it on a full valid buffer, or reset the buffer first. -/
theorem Rx.push_cases (p : FullValidPolicy) (b : Byte) (r : Rx) :
    (r.cursor = 0 ∧ b ≠ 0xFC ∧ r.push p b = r)
      ∨ (r.cursor = 0 ∧ b = 0xFC ∧ r.push p b = r.append b)
      ∨ (r.cursor ≠ 0 ∧ r.cursor ≠ 32 ∧ r.push p b = r.append b)
      ∨ (r.cursor = 32 ∧ r.valid = true ∧ p = .drop ∧ r.push p b = r)
      ∨ (r.cursor = 32 ∧ ¬ (r.valid = true ∧ p = .drop) ∧ b ≠ 0xFC ∧ r.push p b = Rx.empty)
      ∨ (r.cursor = 32 ∧ ¬ (r.valid = true ∧ p = .drop) ∧ b = 0xFC ∧ r.push p b = Rx.empty.append b) := by
  by_cases h : r.cursor = 32
  · by_cases hv : r.valid = true ∧ p = .drop
    · simp [Rx.push, h, hv]
    · have e : r.push p b = r.clear.take b := by simp [Rx.push, h, hv]
      rw [e]
      rcases Rx.take_cases b r.clear with ⟨_, hb, e⟩ | ⟨_, hb, e⟩ | ⟨hc, _⟩
      · exact .inr (.inr (.inr (.inr (.inl ⟨h, hv, hb, e⟩))))
      · exact .inr (.inr (.inr (.inr (.inr ⟨h, hv, hb, e⟩))))
      · exact absurd rfl hc
  · have e : r.push p b = r.take b := by simp [Rx.push, h]
    rw [e]
    rcases Rx.take_cases b r with ⟨h0, hb, e⟩ | ⟨h0, hb, e⟩ | ⟨hc, e⟩
    · exact .inl ⟨h0, hb, e⟩
    · exact .inr (.inl ⟨h0, hb, e⟩)
    · exact .inr (.inr (.inl ⟨hc, h, e⟩))

/-- The bytes after an append: the new one at the cursor, the old ones elsewhere. -/
theorem Rx.append_byte (b : Byte) (r : Rx) {i : Nat} (h : i < 32) :
    (r.append b).byte i = if i = r.cursor then b else r.byte i := byteAt_set _ _ _ h

@[simp] theorem Rx.empty_byte (i : Nat) : Rx.empty.byte i = 0x00 := byteAt_zeroBuffer i

theorem Rx.empty_Inv : Rx.empty.Inv := ⟨by simp, by simp, fun i _ _ => Rx.empty_byte i⟩

/-- Appending keeps the invariant when there is room, and the first byte appended is the marker. -/
theorem Rx.append_Inv {b : Byte} {r : Rx} (h : r.Inv) (hc : r.cursor < 32) (h0 : r.cursor = 0 → b = 0xFC) :
    (r.append b).Inv := by
  obtain ⟨_, hstart, hzero⟩ := h
  refine ⟨by simp; omega, fun _ => ?_, fun i hi hle => ?_⟩
  · rw [Rx.append_byte _ _ (by omega)]
    split
    · exact h0 (by omega)
    · exact hstart (by omega)
  · simp only [Rx.append_cursor] at hle
    rw [Rx.append_byte _ _ hi, if_neg (by omega)]
    exact hzero i hi (by omega)

/-- A pushed byte keeps the invariant, under either policy. -/
theorem Rx.push_Inv (p : FullValidPolicy) (b : Byte) {r : Rx} (h : r.Inv) : (r.push p b).Inv := by
  rcases Rx.push_cases p b r with
    ⟨_, _, e⟩ | ⟨h0, hb, e⟩ | ⟨hc, hn, e⟩ | ⟨_, _, _, e⟩ | ⟨_, _, _, e⟩ | ⟨_, _, hb, e⟩ <;> rw [e]
  · exact h
  · exact Rx.append_Inv h (by omega) fun _ => hb
  · exact Rx.append_Inv h (by have := h.1; omega) fun h0 => absurd h0 hc
  · exact h
  · exact Rx.empty_Inv
  · exact Rx.append_Inv Rx.empty_Inv (by simp) fun _ => hb

@[simp] theorem Rx.feed_nil (p : FullValidPolicy) (r : Rx) : r.feed p [] = r := rfl
@[simp] theorem Rx.feed_cons (p : FullValidPolicy) (b : Byte) (bs : List Byte) (r : Rx) :
    r.feed p (b :: bs) = (r.push p b).feed p bs := rfl
theorem Rx.feed_append (p : FullValidPolicy) (xs ys : List Byte) (r : Rx) :
    r.feed p (xs ++ ys) = (r.feed p xs).feed p ys := by simp [Rx.feed]

/-- The held bytes after an append. -/
theorem Rx.append_held (b : Byte) {r : Rx} (h : r.cursor < 32) : (r.append b).held = r.held ++ [b] :=
  firstBytes_set_succ r.buf b h

/-- Bytes fed to a non-empty buffer with room for them are appended. -/
theorem Rx.feed_held (p : FullValidPolicy) (bs : List Byte) {r : Rx} (h0 : r.cursor ≠ 0)
    (h : r.cursor + bs.length ≤ 32) :
    (r.feed p bs).cursor = r.cursor + bs.length ∧ (r.feed p bs).held = r.held ++ bs := by
  induction bs generalizing r with
  | nil => simp
  | cons b bs ih =>
    simp only [List.length_cons] at h
    have e : r.push p b = r.append b := by
      have h1 : r.cursor ≠ 32 := by omega
      simp [Rx.push, Rx.take, h0, h1]
    obtain ⟨hc, hb⟩ := ih (r := r.append b) (by simp) (by simp; omega)
    rw [Rx.feed_cons, e, hc, hb, Rx.append_held _ (by omega)]
    refine ⟨by simp; omega, by simp⟩

/-- A frame fed to an empty buffer is held whole. -/
theorem Rx.feed_frame_held (p : FullValidPolicy) (mt : Byte) (pl : List Byte) {r : Rx} (h0 : r.cursor = 0)
    (hl : pl.length ≤ 26) :
    (r.feed p (frameBytes mt pl)).cursor = 6 + pl.length ∧ (r.feed p (frameBytes mt pl)).held = frameBytes mt pl := by
  have e : r.push p 0xFC = r.append 0xFC := by simp [Rx.push, Rx.take, h0, Wire.start]
  have hh : (r.append 0xFC).held = [0xFC] := by
    rw [Rx.append_held _ (by omega)]
    simp [Rx.held, h0, firstBytes]
  have hf : frameBytes mt pl = 0xFC :: (frameBytes mt pl).tail := rfl
  have ht : (frameBytes mt pl).tail.length = 5 + pl.length := by simp
  rw [hf, Rx.feed_cons, e]
  obtain ⟨hc, hb⟩ := Rx.feed_held p (frameBytes mt pl).tail (r := r.append 0xFC) (by simp) (by rw [ht]; simp [h0]; omega)
  rw [hc, hb, hh, ht]
  refine ⟨by simp [h0]; omega, rfl⟩

/-- A noise byte leaves an empty buffer unchanged. -/
theorem Rx.feed_noise (p : FullValidPolicy) {bs : List Byte} {r : Rx} (h0 : r.cursor = 0) (h : ∀ b ∈ bs, b ≠ 0xFC) :
    r.feed p bs = r := by
  induction bs with
  | nil => rfl
  | cons b bs ih =>
    have hb : b ≠ 0xFC := h b (by simp)
    have e : r.push p b = r := by
      rcases Rx.push_cases p b r with ⟨_, _, e⟩ | ⟨_, hb', _⟩ | ⟨hc, _⟩ | ⟨hc, _⟩ | ⟨hc, _⟩ | ⟨hc, _⟩
      · exact e
      · exact absurd hb' hb
      · exact absurd h0 hc
      all_goals omega
    rw [Rx.feed_cons, e]
    exact ih fun b hb => h b (by simp [hb])

/-! ## What the status bits read -/

/-- A held byte, as an element of the held list. -/
theorem Rx.held_getElem? (r : Rx) {i : Nat} (h : i < r.cursor) (hc : r.cursor ≤ 32) : r.held[i]? = some (r.byte i) :=
  firstBytes_getElem? r.buf h hc

/-- Two receive sides with the frame's bytes in common, both complete, agree on every answer. -/
theorem Rx.answers_congr {r q : Rx} (hc : r.cursor ≤ 32) (h : r.complete = true)
    (hq : 6 + r.payloadLen ≤ q.cursor) (hb : ∀ i < 6 + r.payloadLen, q.byte i = r.byte i) :
    q.payloadLen = r.payloadLen ∧ q.complete = true ∧ q.valid = r.valid ∧ (∀ p < r.payloadLen, q.byte (5 + p) = r.byte (5 + p)) := by
  simp only [Rx.complete, Bool.and_eq_true, decide_eq_true_eq] at h
  have hL : q.payloadLen = r.payloadLen := by simp only [Rx.payloadLen]; rw [hb 4 (by omega)]
  have hcq : q.complete = true := by
    simp only [Rx.complete, Bool.and_eq_true, decide_eq_true_eq, hL]; omega
  have hcr : r.complete = true := by simp only [Rx.complete, Bool.and_eq_true, decide_eq_true_eq]; exact h
  refine ⟨hL, hcq, ?_, fun p hp => hb _ (by omega)⟩
  have hf : firstBytes q.buf (5 + r.payloadLen) = firstBytes r.buf (5 + r.payloadLen) :=
    firstBytes_congr (Nat.le_trans (by omega) hc) fun i hi => hb i (by omega)
  simp only [Rx.valid, Rx.headerOk, Rx.checksumOk, hcq, hcr, hL, hf, hb 0 (by omega), hb 2 (by omega), hb 3 (by omega),
    hb (5 + r.payloadLen) (by omega)]

end Sys2Proof.Machine
end

