-- ==== Sys2Proof/Laws/Frame.lean ====
section
/-! SUPPORT. Laws/Frame: the two status bits and the frame state as propositions, the wire decoder on the bytes the assembler
holds, and the shape of every encoded frame instruction. -/

namespace Sys2Proof.Machine

/-- `rx_complete` as a proposition (R26). -/
theorem Rx.complete_iff (r : Rx) : r.complete = true ↔ 5 ≤ r.cursor ∧ 6 + r.payloadLen ≤ r.cursor := by
  simp only [Rx.complete, Bool.and_eq_true, decide_eq_true_eq]

/-- `rx_valid` as a proposition (R27). -/
theorem Rx.valid_iff (r : Rx) :
    r.valid = true ↔ (5 ≤ r.cursor ∧ 6 + r.payloadLen ≤ r.cursor)
      ∧ (r.byte 0 = 0xFC ∧ r.byte 2 = 0x01 ∧ r.byte 3 = 0x30)
      ∧ r.byte (5 + r.payloadLen) = chk (firstBytes r.buf (5 + r.payloadLen)) := by
  simp only [Rx.valid, Rx.complete, Rx.headerOk, Rx.checksumOk, Bool.and_eq_true, decide_eq_true_eq, beq_iff_eq]
  exact ⟨fun ⟨⟨a, ⟨b, c⟩, d⟩, e⟩ => ⟨a, ⟨b, c, d⟩, e⟩, fun ⟨a, ⟨b, c, d⟩, e⟩ => ⟨⟨a, ⟨b, c⟩, d⟩, e⟩⟩

/-- A valid frame is complete. -/
theorem Rx.complete_of_valid {r : Rx} (h : r.valid = true) : r.complete = true := (Rx.complete_iff r).2 ((Rx.valid_iff r).1 h).1

/-- The four frame states (R28). -/
theorem Rx.frameState_iff (r : Rx) :
    (r.frameState = .empty ↔ r.cursor = 0) ∧ (r.frameState = .accumulating ↔ r.cursor ≠ 0 ∧ r.complete = false)
      ∧ (r.frameState = .completeValid ↔ r.cursor ≠ 0 ∧ r.complete = true ∧ r.valid = true)
      ∧ (r.frameState = .completeInvalid ↔ r.cursor ≠ 0 ∧ r.complete = true ∧ r.valid = false) := by
  unfold Rx.frameState
  by_cases h : r.cursor = 0
  · simp [h]
  · by_cases hc : r.complete = true <;> by_cases hv : r.valid = true <;> simp [h, hc, hv]

/-- The held bytes with the five header bytes apart. -/
theorem Rx.held_header (r : Rx) (hc : r.cursor ≤ 32) (h5 : 5 ≤ r.cursor) :
    ∃ rest, r.held = r.byte 0 :: r.byte 1 :: r.byte 2 :: r.byte 3 :: r.byte 4 :: rest ∧ rest.length = r.cursor - 5
      ∧ ∀ i, i < r.cursor - 5 → rest[i]? = some (r.byte (5 + i)) := by
  refine ⟨r.held.drop 5, ?_, by simp [Rx.held, firstBytes_length _ hc], ?_⟩
  · apply List.ext_getElem?
    intro i
    have h : ∀ j < 5, r.held[j]? = some (r.byte j) := fun j hj => r.held_getElem? (by omega) hc
    match i with
    | 0 => rw [h 0 (by omega)]; rfl
    | 1 => rw [h 1 (by omega)]; rfl
    | 2 => rw [h 2 (by omega)]; rfl
    | 3 => rw [h 3 (by omega)]; rfl
    | 4 => rw [h 4 (by omega)]; rfl
    | k + 5 => simp [Nat.add_comm]
  · intro i hi
    rw [List.getElem?_drop, r.held_getElem? (by omega) hc]

theorem Rx.held_take (r : Rx) {n : Nat} (hn : n ≤ r.cursor) : r.held.take n = firstBytes r.buf n := by
  simp [Rx.held, firstBytes, List.take_take, Nat.min_eq_left hn]

/-- Everything the wire decoder says of the bytes the assembler holds: incomplete, invalid, or the instruction of the type byte
with a payload that reads as `pay`. -/
theorem decodeFrame_held (r : Rx) (hc : r.cursor ≤ 32) :
    (r.complete = false → decodeFrame r.held = .error .incomplete)
      ∧ (r.complete = true → r.valid = false → decodeFrame r.held = .error .invalid)
      ∧ (r.valid = true → ∃ pl rest, pl.length = r.payloadLen ∧ (∀ p, pl[p]? = r.pay p)
        ∧ (∀ i, frameOfType (r.byte 1) pl = some i → decodeFrame r.held = .ok (i, rest))
        ∧ (frameOfType (r.byte 1) pl = none → decodeFrame r.held = .error .unrecognizedKind)) := by
  by_cases h5 : 5 ≤ r.cursor
  · obtain ⟨rest, hh, hl, hr⟩ := r.held_header hc h5
    have hlen : (r.byte 4).toNat = r.payloadLen := rfl
    rw [hh]
    simp only [decodeFrame, hlen, hl]
    have hf : r.complete = true → firstBytes r.buf (5 + r.payloadLen)
        = [r.byte 0, r.byte 1, r.byte 2, r.byte 3, r.byte 4] ++ rest.take r.payloadLen := by
      intro h
      rw [Rx.complete_iff] at h
      rw [← r.held_take (by omega), hh, Nat.add_comm]
      simp
    have hk : r.complete = true → rest[r.payloadLen]? = some (r.byte (5 + r.payloadLen)) := by
      intro h; rw [Rx.complete_iff] at h; exact hr _ (by omega)
    refine ⟨?_, ?_, ?_⟩
    · intro h
      have : ¬ r.complete = true := by simp [h]
      rw [Rx.complete_iff] at this
      rw [if_pos (by right; omega)]
    · intro h hv
      have hv' : ¬ r.valid = true := by simp [hv]
      rw [Rx.valid_iff] at hv'
      have h' := h
      rw [Rx.complete_iff] at h'
      rw [if_neg (by simp only [maxPayload]; omega), if_neg]
      rintro ⟨a, b, c, d⟩
      rw [hk h] at d
      injection d with d
      rw [← hf h] at d
      exact hv' ⟨h', ⟨a, b, c⟩, d⟩
    · intro hv
      have h := Rx.complete_of_valid hv
      rw [Rx.valid_iff] at hv
      obtain ⟨h', ⟨a, b, c⟩, d⟩ := hv
      have hin : ¬ (maxPayload < r.payloadLen ∨ r.cursor - 5 < r.payloadLen + 1) := by simp only [maxPayload]; omega
      have hok : r.byte 0 = Wire.start ∧ r.byte 2 = Wire.hdr2 ∧ r.byte 3 = Wire.hdr3 ∧ rest[r.payloadLen]?
          = some (chk ([r.byte 0, r.byte 1, r.byte 2, r.byte 3, r.byte 4] ++ rest.take r.payloadLen)) :=
        ⟨a, b, c, by rw [hk h, d, hf h]⟩
      refine ⟨rest.take r.payloadLen, rest.drop (r.payloadLen + 1), by simp; omega, ?_, fun i hi => ?_, fun hn => ?_⟩
      · intro p
        simp only [Rx.pay]
        split
        · rename_i hp
          rw [List.getElem?_take_of_lt hp, hr _ (by omega)]
        · rename_i hp
          rw [List.getElem?_eq_none]; simp; omega
      · rw [if_neg hin, if_pos hok, hi]
      · rw [if_neg hin, if_pos hok, hn]
  · have hnc : r.complete = false := by
      have : ¬ r.complete = true := by rw [Rx.complete_iff]; omega
      simpa using this
    refine ⟨fun _ => ?_, ?_, ?_⟩
    · have hlt : r.held.length < 5 := by rw [Rx.held, firstBytes_length _ hc]; omega
      unfold decodeFrame
      split
      · rename_i e; rw [e] at hlt; simp only [List.length_cons] at hlt; omega
      · rfl
    · intro h; rw [hnc] at h; cases h
    · intro h; rw [Rx.valid_iff] at h; omega

/-- A well-formed frame instruction encodes to the frame of its type and payload. -/
theorem encode_wire {i : Instr} {f : List Byte} (hw : i.wf = true) (h : encode i = .wire f) :
    ∃ mt pl, f = frameBytes mt pl ∧ pl.length ≤ 26 ∧ frameOfType mt pl = some i := by
  have pf : ∀ pl, payloadFits pl = true → pl.length ≤ 26 := by intro pl h; simpa [payloadFits] using h
  cases i <;> simp only [encode, cmdPacket] at h <;> try (cases h)
  all_goals exact ⟨_, _, rfl, pf _ hw, rfl⟩

/-- A receive side that holds a frame of any type and nothing else is valid. -/
theorem Rx.valid_of_held {r : Rx} {mt : Byte} {pl : List Byte} (hl : pl.length ≤ 26) (hcur : r.cursor = 6 + pl.length)
    (hh : r.held = frameBytes mt pl) : r.valid = true := by
  have hd := decodeFrame_frameBytes_eq mt [] hl
  rw [List.append_nil, ← hh] at hd
  obtain ⟨d1, d2, _⟩ := decodeFrame_held r (by omega)
  by_contra hv
  by_cases hcm : r.complete = true
  · rw [d2 hcm (by simpa using hv)] at hd; cases hf : frameOfType mt pl <;> simp [hf] at hd
  · rw [d1 (by simpa using hcm)] at hd; cases hf : frameOfType mt pl <;> simp [hf] at hd

/-- The same for what RX_DECODE reads: the type byte is the frame's. -/
theorem Rx.byte_one_of_held {r : Rx} {mt : Byte} {pl : List Byte} (hl : pl.length ≤ 26) (hcur : r.cursor = 6 + pl.length)
    (hh : r.held = frameBytes mt pl) : r.byte 1 = mt := by
  have h := r.held_getElem? (i := 1) (by omega) (by omega)
  rw [hh, frameBytes_eq] at h
  simpa using h.symm

end Sys2Proof.Machine
end

