-- ==== Sys2Proof/Laws/PerInstr.lean ====
section
/-! SUPPORT. Laws/PerInstr: for each constructor, that its encoding falls in its own row of the opcode table and in no other
(spec/30_encoding.md R72, R88). -/

namespace Sys2Proof.Laws.RowMatch

open Sys2Proof Sys2Proof.Machine

/-- The rows of the table that cover an instruction's encoding are exactly the row of its mnemonic. -/
def Statement (i : Instr) : Prop :=
  (tableRows.filter fun r => r.covers (encode i).tableWord.1 (encode i).tableWord.2).map TableRow.mnemonic = [i.mnemonic]

/-- The rows that cover a command word whose fields are given, by evaluation over every immediate. -/
def commandRows (op imm : Byte) : List String :=
  (tableRows.filter fun r => r.covers false (cmdWord op imm)).map TableRow.mnemonic

theorem commandRows_push : ∀ b : Byte, commandRows 0x01 b = ["RX_PUSH"] := by decide
theorem commandRows_t2b : ∀ b : Byte, commandRows 0x20 b = ["CV_T2B"] := by decide
theorem commandRows_b2t : ∀ b : Byte, commandRows 0x21 b = ["CV_B2T"] := by decide
theorem commandRows_r2b : ∀ b : Byte, commandRows 0x22 b = ["CV_R2B"] := by decide
theorem commandRows_b2r : ∀ b : Byte, commandRows 0x23 b = ["CV_B2R"] := by decide
theorem commandRows_read : ∀ i : BitVec 5, commandRows 0x13 (i.setWidth 8) = ["TX_READ"] := by decide

theorem rxPush (b : Byte) : Statement (.rxPush b) := commandRows_push b
theorem rxComplete : Statement .rxComplete := by unfold Statement; decide
theorem rxValid : Statement .rxValid := by unfold Statement; decide
theorem rxDecode : Statement .rxDecode := by unfold Statement; decide
theorem rxReset : Statement .rxReset := by unfold Statement; decide
theorem txConnect : Statement .txConnect := by unfold Statement; decide
theorem txInfoReq (kind : InfoKind) : Statement (.txInfoReq kind) := by cases kind <;> (unfold Statement; decide)
theorem txSettings (st : Settings) : Statement (.txSettings st) :=
  (by decide : commandRows 0x12 0x00 = ["TX_SETTINGS"])
theorem txRead (i : BitVec 5) : Statement (.txRead i) := commandRows_read i
theorem cvT2b (d : Int) : Statement (.cvT2b d) := commandRows_t2b (BitVec.ofInt 8 d)
theorem cvB2t (b : Byte) : Statement (.cvB2t b) := commandRows_b2t b
theorem cvR2b (d : Int) : Statement (.cvR2b d) := commandRows_r2b (BitVec.ofInt 8 d)
theorem cvB2r (b : Byte) : Statement (.cvB2r b) := commandRows_b2r b

/-- The rows that cover the first two bytes of a frame. -/
def frameRows (mt : Byte) : List String :=
  (tableRows.filter fun r => r.covers true (Wire.start ++ mt)).map TableRow.mnemonic

theorem frameConnect (payload : List Byte) : Statement (.frameConnect payload) :=
  (by decide : frameRows 0x5A = ["FRAME_CONNECT"])
theorem frameSettingsWrite (payload : List Byte) : Statement (.frameSettingsWrite payload) :=
  (by decide : frameRows 0x41 = ["FRAME_SETTINGS_WRITE"])
theorem frameInfoRequest (payload : List Byte) : Statement (.frameInfoRequest payload) :=
  (by decide : frameRows 0x42 = ["FRAME_INFO_REQUEST"])
theorem frameCurSettings (payload : List Byte) : Statement (.frameCurSettings payload) :=
  (by decide : frameRows 0x62 = ["FRAME_CUR_SETTINGS_RESPONSE"])
theorem frameStatusOk (payload : List Byte) : Statement (.frameStatusOk payload) :=
  (by decide : frameRows 0x61 = ["FRAME_STATUS_OK"])
theorem frameStatusNotOk (payload : List Byte) : Statement (.frameStatusNotOk payload) :=
  (by decide : frameRows 0x7A = ["FRAME_STATUS_NOT_OK"])

/-- Every instruction's encoding falls in its own row alone. -/
theorem every (i : Instr) : Statement i :=
  match i with
  | .rxPush b => rxPush b
  | .rxComplete => rxComplete
  | .rxValid => rxValid
  | .rxDecode => rxDecode
  | .rxReset => rxReset
  | .txConnect => txConnect
  | .txInfoReq k => txInfoReq k
  | .txSettings st => txSettings st
  | .txRead j => txRead j
  | .cvT2b d => cvT2b d
  | .cvB2t b => cvB2t b
  | .cvR2b d => cvR2b d
  | .cvB2r b => cvB2r b
  | .frameConnect p => frameConnect p
  | .frameSettingsWrite p => frameSettingsWrite p
  | .frameInfoRequest p => frameInfoRequest p
  | .frameCurSettings p => frameCurSettings p
  | .frameStatusOk p => frameStatusOk p
  | .frameStatusNotOk p => frameStatusNotOk p

end Sys2Proof.Laws.RowMatch
end

