-- ==== Sys2Proof/Laws/Tx.lean ====
section
/-! SUPPORT. Laws/Tx: what an encode command leaves in the transmit buffer, and that it keeps the transmit-side invariant. -/

namespace Sys2Proof.Machine

@[simp] theorem infoReqPayload_length (c : Params) (k : InfoKind) : (infoReqPayload c k).length = c.infoReqLen := by
  simp [infoReqPayload]

@[simp] theorem putField_length {α : Type} (f : Option α) (w : α → Byte) (off : Nat) (pl : List Byte) :
    (putField f w off pl).length = pl.length := by
  cases f <;> simp [putField]

@[simp] theorem settingsPayload_length (c : Params) (st : Settings) : (settingsPayload c st).length = c.swLen := by
  simp [settingsPayload]

/-- The three frames the block sends fit its transmit buffer (R223). -/
theorem codec_frames_fit :
    6 + Wire.connectPayload.length ≤ codec.txCap ∧ 6 + codec.infoReqLen ≤ codec.txCap ∧ 6 + codec.swLen ≤ codec.txCap := by
  decide

/-- Byte `i` of the transmit buffer after an emission: the frame's byte, or 0x00 past its end. -/
theorem emit_byte (c : Params) (mt : Byte) (pl : List Byte) {i : Nat} (h : i < c.txCap) :
    (emit c mt pl).byte i = (frameBytes mt pl).getD i 0x00 := byteAt_loadBuffer _ h

/-- The bytes of an emitted frame. -/
theorem emit_firstBytes (c : Params) (mt : Byte) {pl : List Byte} (h : 6 + pl.length ≤ c.txCap) :
    firstBytes (emit c mt pl).buf (6 + pl.length) = frameBytes mt pl := by
  rw [emit_buf, firstBytes_loadBuffer _ (by simp) (by simp; omega), List.take_of_length_le (by simp)]

theorem Tx.blank_Inv (n : Nat) : (Tx.blank n).Inv := ⟨.inl rfl, fun i _ _ => byteAt_zeroBuffer i, fun h => absurd h (by simp)⟩

/-- An emission of a frame of one of the block's two lengths, in a buffer that holds it, keeps the transmit-side invariant. -/
theorem emit_Inv (c : Params) (mt : Byte) {pl : List Byte} (hc : 22 ≤ c.txCap) (h : pl.length = 2 ∨ pl.length = 16) :
    (emit c mt pl).Inv := by
  refine ⟨by simp; omega, fun i hi hle => ?_, fun _ => ⟨?_, ?_, ?_, ?_, ?_⟩⟩
  · simp only [emit_len] at hle
    rw [emit_byte _ _ _ hi, List.getD_eq_getElem?_getD, List.getElem?_eq_none (by simp; omega)]
    rfl
  · rw [emit_byte _ _ _ (by omega)]; rfl
  · rw [emit_byte _ _ _ (by omega)]; rfl
  · rw [emit_byte _ _ _ (by omega)]; rfl
  · rw [emit_byte _ _ _ (by omega)]
    simp [frameBytes]
    omega
  · have e1 : (emit c mt pl).len - 1 = 5 + pl.length := by simp
    rw [e1, emit_byte _ _ _ (by omega), emit_buf, firstBytes_loadBuffer _ (by simp) (by simp; omega)]
    have e2 : 5 + pl.length = ([0xFC, mt, 0x01, 0x30, BitVec.ofNat 8 pl.length] ++ pl).length := by simp; omega
    rw [frameBytes_eq, e2, List.take_left, List.getD_eq_getElem?_getD, List.getElem?_append_right (Nat.le_refl _)]
    simp

end Sys2Proof.Machine
end

