-- ==== Sys2Proof/Laws/Step.lean ====
section
/-! SUPPORT. Laws/Step: what a step can be, and what every meaning does to the fields around the two buffers. -/

namespace Sys2Proof.Machine

/-- Everything a step can be: idle, the meaning of the decoded command, or a refusal. -/
theorem step_cases (s : State) :
    (s.pending = [] ∧ step s = .next s)
      ∨ (∃ c rest i, s.pending = c :: rest ∧ decodeCommand c = .ok i ∧ step s = exec i { s with pending := rest })
      ∨ (∃ c rest r, s.pending = c :: rest ∧ decodeCommand c = .error r ∧ step s = .refused (.illegalCommand r)) := by
  unfold step fetch
  cases hp : s.pending with
  | nil => exact .inl ⟨rfl, rfl⟩
  | cons c rest =>
    cases hd : decodeCommand c with
    | ok i => exact .inr (.inl ⟨c, rest, i, rfl, hd, by simp [hd]⟩)
    | error r => exact .inr (.inr ⟨c, rest, r, rfl, hd, by simp [hd]⟩)

/-- A command that decodes is the meaning of its instruction. -/
theorem step_of_ok {s : State} {c : Command} {rest : List Command} {i : Instr} (h : s.pending = c :: rest)
    (hd : decodeCommand c = .ok i) : step s = exec i { s with pending := rest } := by simp [step, fetch, h, hd]

/-- A command that does not decode is refused. -/
theorem step_of_error {s : State} {c : Command} {rest : List Command} {r : RefuseReason} (h : s.pending = c :: rest)
    (hd : decodeCommand c = .error r) : step s = .refused (.illegalCommand r) := by simp [step, fetch, h, hd]

/-- What a meaning does to the receive side. -/
def rxAfter (i : Instr) (r : Rx) : Rx :=
  match i with
  | .rxPush b => r.push codec.fullValidPolicy b
  | .rxReset => r.clear
  | _ => r

/-- What a meaning does to the transmit side. -/
def txAfter (i : Instr) (t : Tx codec.txCap) : Tx codec.txCap :=
  match i with
  | .txConnect => emit codec Wire.mtConnect Wire.connectPayload
  | .txInfoReq kind => emit codec Wire.mtInfoReq (infoReqPayload codec kind)
  | .txSettings st => emit codec Wire.mtSettingsWrite (settingsPayload codec st)
  | _ => t

/-- What a meaning responds. -/
def responseOf (i : Instr) (r : Rx) (t : Tx codec.txCap) : Response :=
  match i with
  | .rxPush _ => .ack
  | .rxComplete => .bool r.complete
  | .rxValid => .bool r.valid
  | .rxDecode => .decoded (r.decoded codec)
  | .rxReset => .ack
  | .txConnect => .length 8
  | .txInfoReq kind => .length (6 + (infoReqPayload codec kind).length)
  | .txSettings st => .length (6 + (settingsPayload codec st).length)
  | .txRead i => .byte (t.byte i.toNat)
  | .cvT2b d => .byte (tempToByte d)
  | .cvB2t b => .byte (BitVec.ofInt 8 (byteToTemp b))
  | .cvR2b d => .byte (roomTempToByte d)
  | .cvB2r b => .byte (BitVec.ofInt 8 (byteToRoomTemp b))
  | .frameConnect _ => .decoded (.ignored .connect)
  | .frameSettingsWrite _ => .decoded (.ignored .settingsWrite)
  | .frameInfoRequest _ => .decoded (.ignored .infoRequest)
  | .frameCurSettings p => .decoded (decodeCurrent codec (payloadAt p))
  | .frameStatusOk _ => .decoded .statusOk
  | .frameStatusNotOk _ => .decoded .statusNotOk

/-- Every meaning ends in a next state: each side goes its own way, there is one response, which depends on the two sides alone,
and the refusal mark and the pending commands stay. -/
theorem exec_spec (i : Instr) (s : State) :
    exec i s = .next ⟨rxAfter i s.rx, txAfter i s.tx, some (responseOf i s.rx s.tx), s.refusalMark, s.pending⟩ := by
  cases i <;> rfl

/-- A command that decodes, issued to the block. -/
theorem issue_of_ok {c : Command} {i : Instr} (s : State) (hd : decodeCommand c = .ok i) :
    issue c s = ⟨rxAfter i s.rx, txAfter i s.tx, some (responseOf i s.rx s.tx), s.refusalMark, s.pending⟩ := by
  simp only [issue, hd, exec_spec]

/-- A command that does not decode, issued to the block. -/
theorem issue_of_error {c : Command} {r : RefuseReason} (s : State) (hd : decodeCommand c = .error r) :
    issue c s = markRefusal r s := by simp only [issue, hd]

@[simp] theorem runCommands_nil (s : State) : runCommands [] s = s := rfl
@[simp] theorem runCommands_cons (c : Command) (cs : List Command) (s : State) :
    runCommands (c :: cs) s = runCommands cs (issue c s) := rfl
theorem runCommands_append (cs ds : List Command) (s : State) :
    runCommands (cs ++ ds) s = runCommands ds (runCommands cs s) := by simp [runCommands]

/-- Every meaning keeps the invariants of both sides. -/
theorem rxAfter_Inv (i : Instr) {r : Rx} (h : r.Inv) : (rxAfter i r).Inv := by
  unfold rxAfter
  split
  · exact Rx.push_Inv _ _ h
  · exact Rx.empty_Inv
  · exact h

theorem txAfter_Inv (i : Instr) {t : Tx codec.txCap} (h : t.Inv) : (txAfter i t).Inv := by
  unfold txAfter
  split
  · exact emit_Inv codec _ (by decide) (.inl rfl)
  · exact emit_Inv codec _ (by decide) (.inr (infoReqPayload_length codec _))
  · exact emit_Inv codec _ (by decide) (.inr (settingsPayload_length codec _))
  · exact h

end Sys2Proof.Machine
end

