-- ==== Sys2Proof/Machine/Asm.lean ====
section
/-! DEFINITION. Asm: the assembler syntax and the pseudo-instructions of spec/30_encoding.md R109 and R110, as a function from
a line to the commands it spells. It gives names to commands and changes nothing in the machine (D24). -/

namespace Sys2Proof.Asm

open Sys2Proof.Machine

/-- A token: a word, or one of the separators `,`, `=` and the two braces. -/
abbrev Token := List Char

/-- The two braces, by code point (a string of the model holds none). -/
def leftBrace : Char := Char.ofNat 123
def rightBrace : Char := Char.ofNat 125

/-- A pending word, if it is not empty. -/
def flush (acc : List Char) : List Token := if acc = [] then [] else [acc.reverse]

/-- Tokens of a line; `;` starts a comment (R109). -/
def lex : List Char → List Char → List Token
  | acc, [] => flush acc
  | acc, c :: cs =>
    if c = ';' then flush acc
    else if c = ' ' ∨ c = '\t' then flush acc ++ lex [] cs
    else if c = ',' ∨ c = '=' ∨ c = leftBrace ∨ c = rightBrace then flush acc ++ ([c] :: lex [] cs)
    else lex (c :: acc) cs

/-- The value of a digit in a base up to 16. -/
def digit (base : Nat) (c : Char) : Option Nat :=
  let n := c.toNat
  let v := if 48 ≤ n ∧ n ≤ 57 then n - 48
    else if 97 ≤ n ∧ n ≤ 102 then n - 87
    else if 65 ≤ n ∧ n ≤ 70 then n - 55
    else base
  if v < base then some v else none

/-- A digit string in a base. -/
def digits (base : Nat) : Nat → List Char → Option Nat
  | acc, [] => some acc
  | acc, c :: cs =>
    match digit base c with
    | some v => digits base (acc * base + v) cs
    | none => none

/-- A number, decimal or with a 0x prefix (R109). -/
def number (t : Token) : Option Nat :=
  match t with
  | [] => none
  | '0' :: 'x' :: c :: cs => digits 16 0 (c :: cs)
  | c :: cs => digits 10 0 (c :: cs)

/-- A byte operand. -/
def byteOf (t : Token) : Option Byte :=
  match number t with
  | some n => if n ≤ 255 then some (BitVec.ofNat 8 n) else none
  | none => none

/-- A temperature operand, −128..127. -/
def tempOf (t : Token) : Option Int :=
  match t with
  | '-' :: cs =>
    match number cs with
    | some n => if n ≤ 128 then some (-(n : Int)) else none
    | none => none
  | cs =>
    match number cs with
    | some n => if n ≤ 127 then some (n : Int) else none
    | none => none

/-- The value an enum name spells; the names are those of spec/10_state.md R40. -/
def valueOf {α : Type} (all : List α) (name : α → String) (t : Token) : Option α :=
  all.find? fun v => (name v).toList == t

/-- The value names of WideVane (R40); those of the other enums are their canonical strings. -/
def wideVaneName : WideVane → String
  | .fullLeft => "fullLeft"
  | .halfLeft => "halfLeft"
  | .center => "center"
  | .halfRight => "halfRight"
  | .fullRight => "fullRight"
  | .leftAndRight => "leftAndRight"
  | .swing => "swing"

/-- One `field = value` of `tx.settings`; a field is given once. -/
def setField (st : Settings) (field value : Token) : Option Settings :=
  if field = "power".toList then
    if st.power = none then (valueOf allPower powerCodes.name value).map fun v => { st with power := some v } else none
  else if field = "mode".toList then
    if st.mode = none then (valueOf allMode modeCodes.name value).map fun v => { st with mode := some v } else none
  else if field = "fan".toList then
    if st.fan = none then (valueOf allFan fanCodes.name value).map fun v => { st with fan := some v } else none
  else if field = "vane".toList then
    if st.vane = none then (valueOf allVane vaneCodes.name value).map fun v => { st with vane := some v } else none
  else if field = "widevane".toList then
    if st.wideVane = none then (valueOf allWideVane wideVaneName value).map fun v => { st with wideVane := some v }
    else none
  else if field = "temp".toList then
    if st.temp = none then (tempOf value).map fun d => { st with temp := some d } else none
  else none

/-- The fields of `tx.settings`, after the opening brace; a field left out is invalid (R109). -/
def fields : Settings → List Token → Option Settings
  | st, f :: eq :: v :: sep :: rest =>
    if eq = ['='] then
      match setField st f v with
      | none => none
      | some st' =>
        if sep = [rightBrace] then (if rest = [] then some st' else none)
        else if sep = [','] then fields st' rest
        else none
    else none
  | _, _ => none

/-- The bytes of `rx.feed`, one or more, with commas between them. -/
def byteList : List Token → Option (List Byte)
  | [b] => (byteOf b).map fun v => [v]
  | b :: sep :: rest =>
    if sep = [','] then
      match byteOf b, byteList rest with
      | some v, some vs => some (v :: vs)
      | _, _ => none
    else none
  | [] => none

/-- `tx.dump n` (R110). -/
def dump (n : Nat) : List Instr := (List.range n).map fun i => .txRead (BitVec.ofNat 5 i)

/-- The instructions a line's tokens spell: one for a command of R109, several for a pseudo-instruction of R110, none for an
empty line. -/
def parse (ts : List Token) : Option (List Instr) :=
  match ts with
  | [] => some []
  | [op] =>
    if op = "rx.complete".toList then some [.rxComplete]
    else if op = "rx.valid".toList then some [.rxValid]
    else if op = "rx.decode".toList then some [.rxDecode]
    else if op = "rx.reset".toList then some [.rxReset]
    else if op = "rx.consume".toList then some [.rxDecode, .rxReset]
    else if op = "tx.connect".toList then some [.txConnect]
    else none
  | op :: arg :: rest =>
    if op = "rx.feed".toList then (byteList (arg :: rest)).map fun bs => bs.map Instr.rxPush
    else if op = "tx.settings".toList then
      if arg = [leftBrace] then
        (if rest = [[rightBrace]] then some {} else fields {} rest).map fun st => [.txSettings st]
      else none
    else if rest ≠ [] then none
    else if op = "rx.push".toList then (byteOf arg).map fun b => [.rxPush b]
    else if op = "tx.info".toList then
      if arg = "settings".toList then some [.txInfoReq .settings]
      else if arg = "roomtemp".toList then some [.txInfoReq .roomTemp]
      else none
    else if op = "tx.read".toList then
      (number arg).bind fun n => if n ≤ 31 then some [.txRead (BitVec.ofNat 5 n)] else none
    else if op = "tx.dump".toList then (number arg).bind fun n => if n ≤ 32 then some (dump n) else none
    else if op = "cv.t2b".toList then (tempOf arg).map fun d => [.cvT2b d]
    else if op = "cv.b2t".toList then (byteOf arg).map fun b => [.cvB2t b]
    else if op = "cv.r2b".toList then (tempOf arg).map fun d => [.cvR2b d]
    else if op = "cv.b2r".toList then (byteOf arg).map fun b => [.cvB2r b]
    else none

/-- The commands a line of source spells; `none` when it is no line of the syntax. -/
def assemble (line : List Char) : Option (List Command) := (parse (lex [] line)).map commandsOf

end Sys2Proof.Asm
end

