-- ==== Sys2Proof/Tests/Slice0.lean ====
section
/-! SUPPORT. Tests/Slice0: the model against the vectors of spec/95_test_vectors.md (each test names its vector), the checks of
WellFormed, and for each obligation with hypotheses a concrete case that meets them. -/

namespace Sys2Proof.Tests

open Sys2Proof Sys2Proof.Machine Sys2Proof.Claims

/-! ## Helpers -/

/-- The reset state with bytes standing in the receive buffer. -/
def holding (bs : List Byte) : State := { State.reset with rx := ⟨loadBuffer rxCap bs, bs.length⟩ }

/-- The state an instruction ends in. -/
def after (i : Instr) (s : State) : State :=
  match exec i s with
  | .next t => t
  | .fault _ => s
  | .refused _ => s

/-- The response of an instruction. -/
def answer (i : Instr) (s : State) : Option Response := (after i s).response

/-- `dec_tag` and `dec_data` of RX_DECODE on held bytes. -/
def decodes (bs : List Byte) : Option (BitVec 4 × Port32) := (answer .rxDecode (holding bs)).bind decPort

/-- The frame an encode command leaves. -/
def sent (i : Instr) : List Byte := let t := (after i State.reset).tx; firstBytes t.buf t.len

/-- What the decoder reads from a command word. -/
def reads (w : CmdWord) (p : Port32 := 0) : Option Instr :=
  match decodeCommand ⟨w, p⟩ with
  | .ok i => some i
  | .error _ => none

/-- Why a command is refused. -/
def refusal (w : CmdWord) (p : Port32 := 0) : Option RefuseReason :=
  match decodeCommand ⟨w, p⟩ with
  | .ok _ => none
  | .error r => some r

/-- What the decoder reads from the bytes of a frame. -/
def readsFrame (bs : List Byte) : Option Instr :=
  match decode (.wire bs) with
  | .ok i => some i
  | .error _ => none

/-- The status-ok frame of vector A4. -/
def okFrame : List Byte := [0xFC, 0x61, 0x01, 0x30, 0x00, 0x6E]

/-- The connect frame of vector V1. -/
def connectFrame : List Byte := [0xFC, 0x5A, 0x01, 0x30, 0x02, 0xCA, 0x01, 0xA8]

/-- The largest frame that completes, vector A14. -/
def fullFrame : List Byte := [0xFC, 0x7A, 0x01, 0x30, 0x1A] ++ List.replicate 26 0x00 ++ [0x3B]

/-- The settings reply of vector B6. -/
def replyB6 : List Byte :=
  [0xFC, 0x62, 0x01, 0x30, 0x10, 0x02, 0x00, 0x00, 0x01, 0x03, 0x09] ++ [0x00, 0x00, 0x00, 0x00, 0x03, 0x00, 0x00, 0x00, 0x00, 0x00, 0x4B]

/-- The record of vectors B6 and D4. -/
def recordB6 : Settings :=
  { power := some .on, mode := some .cool, temp := some 22, fan := some .auto, vane := some .auto, wideVane := some .center }

/-! ## WellFormed: a term for each check that the check refuses, and one it lets pass at the boundary -/

theorem wf_settings_temp_high : (Instr.txSettings { temp := some 128 }).wf = false := by decide
theorem wf_settings_temp_low : (Instr.txSettings { temp := some (-129) }).wf = false := by decide
theorem wf_t2b : (Instr.cvT2b 128).wf = false := by decide
theorem wf_r2b : (Instr.cvR2b (-129)).wf = false := by decide
theorem wf_frame_connect : (Instr.frameConnect (List.replicate 27 0)).wf = false := by decide
theorem wf_frame_settings : (Instr.frameSettingsWrite (List.replicate 27 0)).wf = false := by decide
theorem wf_frame_info : (Instr.frameInfoRequest (List.replicate 27 0)).wf = false := by decide
theorem wf_frame_current : (Instr.frameCurSettings (List.replicate 27 0)).wf = false := by decide
theorem wf_frame_ok : (Instr.frameStatusOk (List.replicate 27 0)).wf = false := by decide
theorem wf_frame_not_ok : (Instr.frameStatusNotOk (List.replicate 27 0)).wf = false := by decide
theorem wf_boundaries : (Instr.cvT2b (-128)).wf = true ∧ (Instr.cvR2b 127).wf = true
    ∧ (Instr.frameConnect (List.replicate 26 0)).wf = true := by decide

/-! ## Decode: a written word for each constructor -/

theorem test_decode_rx : reads 0x01FC = some (.rxPush 0xFC) ∧ reads 0x0200 = some .rxComplete ∧ reads 0x0300 = some .rxValid
    ∧ reads 0x0400 = some .rxDecode ∧ reads 0x0500 = some .rxReset := by decide
theorem test_decode_tx : reads 0x1000 = some .txConnect ∧ reads 0x1100 = some (.txInfoReq .settings)
    ∧ reads 0x1101 = some (.txInfoReq .roomTemp) ∧ reads 0x131F = some (.txRead 31) := by decide
/-- Vectors D3, D4, D5 and D8: the operand port. -/
theorem test_decode_settings : reads 0x1200 0x00B40003 = some (.txSettings { power := some .on, temp := some 22 })
    ∧ reads 0x1200 0x00B54457 = some (.txSettings recordB6)
    ∧ reads 0x1200 0x00FF76DD = some (.txSettings ⟨some .off, some .fan, some .f4, some .swing, some .swing, some 31⟩)
    ∧ reads 0x1200 0x07DC0000 = some (.txSettings { temp := some (-5) }) := by decide
theorem test_decode_cv : reads 0x2080 = some (.cvT2b (-128)) ∧ reads 0x210F = some (.cvB2t 0x0F)
    ∧ reads 0x22F6 = some (.cvR2b (-10)) ∧ reads 0x231F = some (.cvB2r 0x1F) := by decide
/-- Vectors B3, B4, B5, B8, B15 and B17. -/
theorem test_decode_frames : readsFrame connectFrame = some (.frameConnect [0xCA, 0x01])
    ∧ readsFrame ([0xFC, 0x41, 0x01, 0x30, 0x10, 0x01] ++ List.replicate 15 0x00 ++ [0x7D])
      = some (.frameSettingsWrite (0x01 :: List.replicate 15 0x00))
    ∧ readsFrame ([0xFC, 0x42, 0x01, 0x30, 0x10, 0x02] ++ List.replicate 15 0x00 ++ [0x7B])
      = some (.frameInfoRequest (0x02 :: List.replicate 15 0x00))
    ∧ readsFrame [0xFC, 0x62, 0x01, 0x30, 0x05, 0x02, 0x00, 0x00, 0x01, 0x07, 0x5E]
      = some (.frameCurSettings [0x02, 0x00, 0x00, 0x01, 0x07])
    ∧ readsFrame okFrame = some (.frameStatusOk [])
    ∧ readsFrame [0xFC, 0x7A, 0x01, 0x30, 0x00, 0x55] = some (.frameStatusNotOk []) := by decide
/-- Vectors B1, B2, B18 and A7: frames that spell nothing. -/
theorem test_decode_no_frame : readsFrame [0xFC, 0x61, 0x01, 0x30] = none ∧ readsFrame [0xFC, 0x61, 0x01, 0x30, 0x00, 0x6F] = none
    ∧ readsFrame [0xFC, 0x00, 0x01, 0x30, 0x00, 0xCF] = none
    ∧ readsFrame ([0xFC, 0x61, 0x01, 0x30, 0x1B] ++ List.replicate 27 0x00 ++ [0x00]) = none := by decide
/-- The packing checks of group E. -/
theorem test_pack : packSettings { power := some .on } = 0x00000003 ∧ packSettings { mode := some .auto } = 0x00000024
    ∧ packSettings { fan := some .f4 } = 0x000002C0 ∧ packSettings { vane := some .swing } = 0x00003400
    ∧ packSettings { wideVane := some .swing } = 0x00034000 ∧ packSettings { temp := some 22 } = 0x00B40000
    ∧ packSettings { temp := some (-1) } = 0x07FC0000 := by decide
/-- Vectors E1 to E6. -/
theorem test_refuse_opcodes : [0x0001, 0x0601, 0x0F00, 0x1400, 0x24FF, 0xFFFF].map (fun w => refusal w)
    = List.replicate 6 (some .reservedOpcode) := by decide
/-- Vectors E7 to E13. -/
theorem test_refuse_immediates : [0x0280, 0x0501, 0x1001, 0x1102, 0x1180, 0x1320, 0x13FF].map (fun w => refusal w)
    = List.replicate 7 (some .nonZeroReservedBits) := by decide
/-- Vectors E14 to E21, D11. -/
theorem test_refuse_settings : refusal 0x1201 0x08000028 = some .nonZeroReservedBits
    ∧ refusal 0x1200 0x08000000 = some .nonZeroReservedBits ∧ refusal 0x1200 0x80000000 = some .nonZeroReservedBits
    ∧ refusal 0x1200 0x0000002C = some .reservedEnumIndex ∧ refusal 0x1200 0x00000340 = some .reservedEnumIndex
    ∧ refusal 0x1200 0x00003C00 = some .reservedEnumIndex ∧ refusal 0x1200 0x0003C000 = some .reservedEnumIndex
    ∧ reads 0x1200 0x00038000 = some (.txSettings {}) ∧ reads 0x1200 0x00000028 = some (.txSettings {}) := by decide
/-- Every row of the opcode table decodes to its own instruction. -/
theorem test_table_rows : tableRows.map (fun r => (decodeTableWord 16 r.pattern.toNat).map Instr.mnemonic)
    = tableRows.map (fun r => some r.mnemonic) := by decide

/-- The response of one step. -/
def stepAnswer (s : State) : Option Response :=
  match step s with
  | .next t => t.response
  | .fault _ => none
  | .refused _ => none

/-- Every row's instruction runs as the first one after reset. -/
theorem test_first_step : tableRows.map (fun r => (stepAnswer (State.reset.withFetchWord 16 r.pattern.toNat)).isSome)
    = List.replicate 19 true := by decide
/-- A frame row's first step answers by the frame's own type: FRAME_STATUS_OK, FRAME_CONNECT (R88). -/
theorem test_first_step_frames : (stepAnswer (State.reset.withFetchWord 16 0xFC61)).bind decPort = some (7, 0)
    ∧ (stepAnswer (State.reset.withFetchWord 16 0xFC5A)).bind decPort = some (1, 0) := by decide

/-! ## RX commands -/

/-- Vectors A1, A3a and A11: noise is dropped, 0xFC starts a frame, and 0xFC inside a frame is data. -/
theorem test_push_noise : (after (.rxPush 0x61) State.reset).rx = Rx.empty ∧ (after (.rxPush 0xFC) State.reset).rx = (holding [0xFC]).rx
    ∧ (after (.rxPush 0xFC) (holding [0xFC, 0x61, 0x01, 0x30, 0x01])).rx.held = [0xFC, 0x61, 0x01, 0x30, 0x01, 0xFC] := by decide
/-- Vectors A15, A16, A17 and A7a: a full buffer, under both policies. -/
theorem test_push_full : (holding fullFrame).rx.push .reset 0xFC = (holding [0xFC]).rx
    ∧ (holding fullFrame).rx.push .drop 0xFC = (holding fullFrame).rx
    ∧ (holding (fullFrame.set 31 0x3C)).rx.push .drop 0xFC = (holding [0xFC]).rx
    ∧ (holding (fullFrame.set 31 0x3C)).rx.push .reset 0x55 = Rx.empty := by decide
/-- Vectors A3d, A3e, A4, A13 and A14. -/
theorem test_complete : answer .rxComplete (holding [0xFC, 0x61, 0x01, 0x30]) = some (.bool false)
    ∧ answer .rxComplete (holding [0xFC, 0x61, 0x01, 0x30, 0x00]) = some (.bool false)
    ∧ answer .rxComplete (holding okFrame) = some (.bool true)
    ∧ answer .rxComplete (holding (fullFrame.take 31)) = some (.bool false)
    ∧ answer .rxComplete (holding fullFrame) = some (.bool true) := by decide
/-- Vectors A4, A5a, A5b, A5c, A6, A12 and A14. -/
theorem test_valid : answer .rxValid (holding okFrame) = some (.bool true)
    ∧ answer .rxValid (holding [0xFC, 0x61, 0x01, 0x30, 0x00, 0x6F]) = some (.bool false)
    ∧ answer .rxValid (holding [0xFC, 0x61, 0x02, 0x30, 0x00, 0x6D]) = some (.bool false)
    ∧ answer .rxValid (holding [0xFC, 0x61, 0x01, 0x31, 0x00, 0x6D]) = some (.bool false)
    ∧ answer .rxValid (holding (okFrame ++ [0xAA, 0xBB])) = some (.bool true)
    ∧ answer .rxValid (holding [0xFC, 0x00, 0x01, 0x30, 0x00, 0xCF]) = some (.bool true)
    ∧ answer .rxValid (holding fullFrame) = some (.bool true) := by decide
/-- Vectors B6, B9, B10, B11, B12 and B21. -/
theorem test_decode_values : decodes replyB6 = some (4, 0x00B54457) ∧ decodes (replyB6 ++ [0xFC]) = some (4, 0x00B54457)
    ∧ decodes ([0xFC, 0x62, 0x01, 0x30, 0x10, 0x03, 0x00, 0x00, 0x0C] ++ List.replicate 12 0x00 ++ [0x4E]) = some (5, 0x0000002D)
    ∧ decodes ([0xFC, 0x62, 0x01, 0x30, 0x10, 0x03, 0x00, 0x00, 0x20, 0x00, 0x00, 0x5B] ++ List.replicate 9 0x00 ++ [0xDF])
      = some (5, 0x00016E00)
    ∧ decodes ([0xFC, 0x62, 0x01, 0x30, 0x10, 0x03, 0x00, 0x00, 0x1F, 0x00, 0x00, 0x01] ++ List.replicate 9 0x00 ++ [0x3A])
      = some (5, 0x00000653)
    ∧ decodes [0xFC, 0x62, 0x01, 0x30, 0x04, 0x03, 0x00, 0x00, 0x00, 0x66] = some (5, 0x00000015) := by decide
/-- Vectors B2, B2a, B7, B13, B14, B18 and B19. -/
theorem test_decode_corners : decodes [0xFC, 0x61, 0x01, 0x30, 0x00, 0x6F] = some (0, 0)
    ∧ decodes [0xFC, 0x00, 0x01, 0x30, 0x00, 0xD0] = some (0, 0)
    ∧ decodes ([0xFC, 0x62, 0x01, 0x30, 0x10, 0x02, 0x00, 0x00, 0x00, 0x04, 0x10, 0x06, 0x07, 0x00, 0x00, 0x0C]
      ++ List.replicate 5 0x00 ++ [0x2E]) = some (4, 0x000376C1)
    ∧ decodes ([0xFC, 0x62, 0x01, 0x30, 0x10, 0x05] ++ List.replicate 15 0x00 ++ [0x58]) = some (6, 0)
    ∧ decodes [0xFC, 0x62, 0x01, 0x30, 0x00, 0x6D] = some (6, 0) ∧ decodes [0xFC, 0x00, 0x01, 0x30, 0x00, 0xCF] = some (9, 0)
    ∧ decodes [0xFC, 0x63, 0x01, 0x30, 0x02, 0x01, 0x02, 0x67] = some (9, 0) := by decide
/-- Vectors A21 and A23. -/
theorem test_reset : (after .rxReset (holding okFrame)).rx = Rx.empty ∧ (after .rxReset State.reset).rx = Rx.empty := by decide

/-! ## The frame rows -/

/-- Vectors B3, B4, B5, B15 and B17. -/
theorem test_frames : (answer (.frameConnect [0xCA, 0x01]) State.reset).bind decPort = some (1, 0)
    ∧ (answer (.frameSettingsWrite [0x01]) State.reset).bind decPort = some (2, 0)
    ∧ (answer (.frameInfoRequest [0x02]) State.reset).bind decPort = some (3, 0)
    ∧ (answer (.frameStatusOk []) State.reset).bind decPort = some (7, 0)
    ∧ (answer (.frameStatusNotOk []) State.reset).bind decPort = some (8, 0) := by decide
/-- Vectors B8, B12 and B14. -/
theorem test_frame_current : (answer (.frameCurSettings [0x02, 0x00, 0x00, 0x01, 0x07]) State.reset).bind decPort = some (4, 0x0000001F)
    ∧ (answer (.frameCurSettings [0x03, 0x00, 0x00, 0x00]) State.reset).bind decPort = some (5, 0x00000015)
    ∧ (answer (.frameCurSettings []) State.reset).bind decPort = some (6, 0) := by decide

/-! ## TX commands -/

/-- Vectors D1 and V10. -/
theorem test_tx_connect : sent .txConnect = connectFrame ∧ answer .txConnect State.reset = some (.length 8) := by decide
/-- Vectors D2a and D2b. -/
theorem test_tx_info : sent (.txInfoReq .settings) = [0xFC, 0x42, 0x01, 0x30, 0x10, 0x02] ++ List.replicate 15 0x00 ++ [0x7B]
    ∧ sent (.txInfoReq .roomTemp) = [0xFC, 0x42, 0x01, 0x30, 0x10, 0x03] ++ List.replicate 15 0x00 ++ [0x7A] := by decide
/-- Vectors D3 (V2), D4, D5 and D10. -/
theorem test_tx_settings : sent (.txSettings { power := some .on, temp := some 22 })
      = [0xFC, 0x41, 0x01, 0x30, 0x10, 0x01, 0x05, 0x00, 0x01, 0x00, 0x09] ++ List.replicate 10 0x00 ++ [0x6E]
    ∧ sent (.txSettings recordB6) = [0xFC, 0x41, 0x01, 0x30, 0x10, 0x01, 0x9F, 0x00, 0x01, 0x03, 0x09] ++ List.replicate 7 0x00
      ++ [0x03, 0x00, 0x00, 0xCE]
    ∧ sent (.txSettings ⟨some .off, some .fan, some .f4, some .swing, some .swing, some 31⟩)
      = [0xFC, 0x41, 0x01, 0x30, 0x10, 0x01, 0x9F, 0x00, 0x00, 0x07, 0x00, 0x06, 0x07] ++ List.replicate 5 0x00
      ++ [0x0C, 0x00, 0x00, 0xBE]
    ∧ sent (.txSettings { fan := some .quiet, vane := some .v3, wideVane := some .leftAndRight })
      = [0xFC, 0x41, 0x01, 0x30, 0x10, 0x01, 0x98, 0x00, 0x00, 0x00, 0x00, 0x01, 0x03] ++ List.replicate 5 0x00
      ++ [0x08, 0x00, 0x00, 0xD9] := by decide
/-- Vectors D6, D7 and D8. -/
theorem test_tx_settings_edges :
    sent (.txSettings {}) = [0xFC, 0x41, 0x01, 0x30, 0x10, 0x01, 0x00] ++ List.replicate 14 0x00 ++ [0x7D]
    ∧ sent (.txSettings { temp := some 40 }) = [0xFC, 0x41, 0x01, 0x30, 0x10, 0x01, 0x04] ++ List.replicate 14 0x00 ++ [0x79]
    ∧ sent (.txSettings { temp := some (-5) }) = sent (.txSettings { temp := some 40 }) := by decide
/-- Vectors D12, D13 and D15. -/
theorem test_tx_read : answer (.txRead 7) (after .txConnect State.reset) = some (.byte 0xA8)
    ∧ answer (.txRead 8) (after .txConnect State.reset) = some (.byte 0x00)
    ∧ answer (.txRead 0) State.reset = some (.byte 0x00) := by decide
/-- Vector D14: a shorter frame over a longer one. -/
theorem test_tx_read_overwritten :
    answer (.txRead 21) (after .txConnect (after (.txInfoReq .settings) State.reset)) = some (.byte 0x00) := by decide

/-! ## Conversions -/

/-- Vectors F1 to F7. -/
theorem test_t2b : [16, 22, 31, 15, 32, -1, -128].map (fun d => answer (.cvT2b d) State.reset)
    = [0x0F, 0x09, 0x00, 0x00, 0x00, 0x00, 0x00].map (fun b => some (.byte b)) := by decide
/-- Vectors F8 to F12. -/
theorem test_b2t : [0x00, 0x09, 0x0F, 0x10, 0xFF].map (fun b => answer (.cvB2t b) State.reset)
    = [0x1F, 0x16, 0x10, 0x00, 0x00].map (fun b => some (.byte b)) := by decide
/-- Vectors F13 to F18. -/
theorem test_r2b : [10, 22, 41, 9, 42, -10].map (fun d => answer (.cvR2b d) State.reset)
    = [0x00, 0x0C, 0x1F, 0x00, 0x00, 0x00].map (fun b => some (.byte b)) := by decide
/-- Vectors F19 to F23. -/
theorem test_b2r : [0x00, 0x0C, 0x1F, 0x20, 0xFF].map (fun b => answer (.cvB2r b) State.reset)
    = [0x0A, 0x16, 0x29, 0x00, 0x00].map (fun b => some (.byte b)) := by decide

/-! ## Pure functions -/

/-- Vectors C1, C2, C3 and C5. -/
theorem test_chk : chk [] = 0xFC ∧ chk [0xFC] = 0x00 ∧ chk [0xFC, 0x61, 0x01, 0x30, 0x00] = 0x6E
    ∧ chk [0xFC, 0x5A, 0x01, 0x30, 0x02, 0xCA, 0x01] = 0xA8 := by decide
/-- Vectors H1 and H5. -/
theorem test_settings_eq : settingsEq { power := some .on, temp := some 22 } { power := some .on, mode := some .cool } = true
    ∧ settingsEq { power := some .on } { power := some .off } = false := by decide
/-- Vectors S3, S5, S6 and S7. -/
theorem test_strings : toStringMode codec 5 = "undefined" ∧ fromStringMode codec "Cool" = (.heat, false)
    ∧ fromStringFan codec "turbo" = (.f1, false) ∧ fromStringVane codec "" = (.auto, false) := by decide
/-- The lines of D3 and of program P1, as commands (R109, R110). -/
theorem test_assemble :
    Asm.assemble (("tx.settings ".toList ++ [Asm.leftBrace]) ++ "power = on, temp = 22".toList ++ [Asm.rightBrace])
      = some [⟨0x1200, 0x00B40003⟩]
    ∧ Asm.assemble "rx.feed 0xFC,122 ; status".toList = some [⟨0x01FC, 0⟩, ⟨0x017A, 0⟩]
    ∧ Asm.assemble "rx.consume".toList = some [⟨0x0400, 0⟩, ⟨0x0500, 0⟩]
    ∧ Asm.assemble "cv.t2b -128".toList = some [⟨0x2080, 0⟩] ∧ Asm.assemble "tx.read 32".toList = none := by decide

/-! ## Witnesses: each obligation's hypotheses are met, at the boundary of every clause -/

/-- Some command decodes. -/
theorem witness_PowerOnResetState : decodeCommand ⟨0x0200, 0⟩ = .ok .rxComplete := rfl

theorem witness_StepRunsTheNextCommand :
    (∃ s : State, s.pending = [⟨0x0200, 0⟩] ∧ decodeCommand ⟨0x0200, 0⟩ = .ok .rxComplete)
      ∧ (∃ s : State, s.pending = [⟨0x0600, 0⟩] ∧ decodeCommand ⟨0x0600, 0⟩ = .error .reservedOpcode)
      ∧ State.reset.pending = [] :=
  ⟨⟨{ State.reset with pending := [⟨0x0200, 0⟩] }, rfl, rfl⟩, ⟨{ State.reset with pending := [⟨0x0600, 0⟩] }, rfl, rfl⟩, rfl⟩

/-- Both ends of every reserved range. -/
theorem witness_ReservedOpcodeRefused :
    (∃ s : State, s.pending = [⟨0x0000, 0⟩] ∧ ReservedOp ⟨0x0000, 0⟩)
      ∧ ReservedOp ⟨0x00FF, 0⟩ ∧ ReservedOp ⟨0x0600, 0⟩ ∧ ReservedOp ⟨0x0FFF, 0⟩ ∧ ReservedOp ⟨0x1400, 0⟩ ∧ ReservedOp ⟨0x1FFF, 0⟩
      ∧ ReservedOp ⟨0x2400, 0⟩ ∧ ReservedOp ⟨0xFFFF, 0⟩ :=
  ⟨⟨{ State.reset with pending := [⟨0x0000, 0⟩] }, rfl, by unfold ReservedOp; decide⟩, by unfold ReservedOp; decide⟩

theorem witness_NonZeroImmediateRefused :
    (∃ s : State, s.pending = [⟨0x0501, 0⟩] ∧ NonZeroImm ⟨0x0501, 0⟩)
      ∧ NonZeroImm ⟨0x0201, 0⟩ ∧ NonZeroImm ⟨0x03FF, 0⟩ ∧ NonZeroImm ⟨0x0480, 0⟩ ∧ NonZeroImm ⟨0x1001, 0⟩ ∧ NonZeroImm ⟨0x1201, 0⟩
      ∧ NonZeroImm ⟨0x1102, 0⟩ ∧ NonZeroImm ⟨0x11FF, 0⟩ ∧ NonZeroImm ⟨0x1320, 0⟩ ∧ NonZeroImm ⟨0x13FF, 0⟩ :=
  ⟨⟨{ State.reset with pending := [⟨0x0501, 0⟩] }, rfl, by unfold NonZeroImm; decide⟩, by unfold NonZeroImm; and_intros <;> decide⟩

/-- A command for each check, and one that passes them all. The hypotheses of two clauses never hold together. -/
theorem witness_RefusalChecksInOrder :
    ReservedOp ⟨0x0001, 0⟩ ∧ (¬ ReservedOp ⟨0x1201, 0x08000028⟩ ∧ NonZeroImm ⟨0x1201, 0x08000028⟩)
      ∧ (¬ NonZeroImm ⟨0x1200, 0x0800002C⟩ ∧ ReservedPortBits ⟨0x1200, 0x0800002C⟩)
      ∧ (¬ NonZeroImm ⟨0x1200, 0x0003C000⟩ ∧ ¬ ReservedPortBits ⟨0x1200, 0x0003C000⟩ ∧ ReservedIndex ⟨0x1200, 0x0003C000⟩)
      ∧ (¬ ReservedOp ⟨0x1200, 0x00038000⟩ ∧ ¬ NonZeroImm ⟨0x1200, 0x00038000⟩ ∧ ¬ ReservedPortBits ⟨0x1200, 0x00038000⟩
        ∧ ¬ ReservedIndex ⟨0x1200, 0x00038000⟩) := by
  unfold ReservedOp NonZeroImm ReservedPortBits ReservedIndex; and_intros <;> decide

theorem witness_RefusalsLeaveOnlyTheMark :
    decodeCommand ⟨0x0600, 0⟩ = .error .reservedOpcode
      ∧ (issue ⟨0x0600, 0⟩ State.reset).refusalMark.isSome = true := ⟨rfl, rfl⟩

theorem witness_StepRunIsHostRun :
    ∃ s : State, s.pending = [⟨0x01FC, 0⟩, ⟨0x0200, 0⟩] ∧ ∀ c ∈ s.pending, (decodeCommand c).isOk = true :=
  ⟨{ State.reset with pending := [⟨0x01FC, 0⟩, ⟨0x0200, 0⟩] }, rfl, by decide⟩

/-- The longest payload and the lowest temperature. -/
theorem witness_DecodeOfEncode : (Instr.frameStatusNotOk (List.replicate 26 0)).wf = true ∧ (Instr.cvT2b (-128)).wf = true := by decide

theorem witness_EncodeOfDecodedCommand :
    decodeCommand ⟨0x131F, 0⟩ = .ok (.txRead 31) ∧ (∀ st, Instr.txRead 31 ≠ .txSettings st)
      ∧ decodeCommand ⟨0x1200, 0⟩ = .ok (.txSettings {}) := ⟨by rfl, fun _ => by simp, by rfl⟩

/-- A frame with a byte after it. -/
theorem witness_WireDecoderIsExact :
    decodeFrame (okFrame ++ [0xAA]) = .ok (.frameStatusOk [], [0xAA]) ∧ (Instr.frameStatusOk []).wf = true
      ∧ encode (.frameStatusOk []) = .wire okFrame := ⟨by rfl, by rfl, by rfl⟩

theorem witness_DecoderFollowsTheTable :
    decodeCommand ⟨0x1101, 0⟩ = .ok (.txInfoReq .roomTemp)
      ∧ ∃ r ∈ tableRows, r.covers false 0x1101 = true ∧ r.mnemonic = "TX_INFO_REQ" :=
  ⟨by rfl, ⟨"TX_INFO_REQ", false, 0xFFFE, 0x1100⟩, by decide, by decide, rfl⟩

theorem witness_SettingsPortLayout :
    unpackSettings 0x07FC0000 = .ok { temp := some (-1) } ∧ (⟨none, none, none, none, none, some (-128)⟩ : Settings).wf = true :=
  ⟨by rfl, by decide⟩

theorem witness_DecodeResultPorts :
    (recordB6.wf = true) ∧ (∀ d, (⟨some 255, some 0xFF⟩ : RoomTemp).room = some d → 0 ≤ d ∧ d ≤ 255)
      ∧ (decTag .statusOk ≠ 4 ∧ decTag .statusOk ≠ 5) := by
  refine ⟨by decide, fun d h => ?_, by decide⟩
  injection h with h; omega

/-- A cursor for each clause: 0, 1, 31 and 32, the last with and without a valid frame. -/
theorem witness_RxPushByCursor :
    State.reset.rx.cursor = 0 ∧ (holding [0xFC]).rx.cursor = 1 ∧ (holding (fullFrame.take 31)).rx.cursor = 31
      ∧ ((holding fullFrame).rx.cursor = 32 ∧ (holding fullFrame).rx.valid = true)
      ∧ ((holding (fullFrame.set 31 0x3C)).rx.cursor = 32 ∧ (holding (fullFrame.set 31 0x3C)).rx.valid = false) := by decide

theorem witness_FullValidPolicyValues :
    ((holding fullFrame).rx.cursor = 32 ∧ (holding fullFrame).rx.valid = true)
      ∧ ((holding (fullFrame.set 31 0x3C)).rx.cursor = 32 ∧ (holding (fullFrame.set 31 0x3C)).rx.valid = false)
      ∧ ¬ ((holding okFrame).rx.cursor = 32 ∧ (holding okFrame).rx.valid = true) := by decide

theorem witness_RxValidResult :
    ValidFrame (holding okFrame) ∧ ValidFrame (holding fullFrame) ∧ ¬ ValidFrame (holding [0xFC, 0x61, 0x01, 0x30]) := by
  unfold ValidFrame; decide

/-- A held frame for each branch of the dispatch. -/
theorem witness_RxDecodeDispatch :
    ¬ ValidFrame State.reset ∧ (∀ f ∈ [connectFrame, sent (.txSettings {}), sent (.txInfoReq .settings), replyB6, okFrame, fullFrame],
        ValidFrame (holding f))
      ∧ [connectFrame, sent (.txSettings {}), sent (.txInfoReq .settings), replyB6, okFrame, fullFrame].map
        (fun f => (holding f).rx.byte 1) = [0x5A, 0x41, 0x42, 0x62, 0x61, 0x7A]
      ∧ pay (holding replyB6) 0 = some 0x02
      ∧ (ValidFrame (holding [0xFC, 0x62, 0x01, 0x30, 0x04, 0x03, 0x00, 0x00, 0x00, 0x66])
        ∧ pay (holding [0xFC, 0x62, 0x01, 0x30, 0x04, 0x03, 0x00, 0x00, 0x00, 0x66]) 0 = some 0x03)
      ∧ (ValidFrame (holding [0xFC, 0x62, 0x01, 0x30, 0x00, 0x6D]) ∧ pay (holding [0xFC, 0x62, 0x01, 0x30, 0x00, 0x6D]) 0 = none)
      ∧ ValidFrame (holding [0xFC, 0x00, 0x01, 0x30, 0x00, 0xCF]) := by
  unfold ValidFrame pay; decide

/-- Both ends of the temperature range, and one past it. -/
theorem witness_DecodedSettingsFields :
    (ValidFrame (holding replyB6) ∧ (holding replyB6).rx.byte 1 = 0x62 ∧ pay (holding replyB6) 0 = some 0x02)
      ∧ (decodeSettings codec fun _ => some 0x00).temp = some 31 ∧ (decodeSettings codec fun _ => some 0x0F).temp = some 16
      ∧ (decodeSettings codec fun _ => some 0x10).temp = none ∧ (decodeSettings codec fun _ => none).power = none := by
  unfold ValidFrame pay; decide

theorem witness_DecodedRoomTempFields :
    (ValidFrame (holding [0xFC, 0x62, 0x01, 0x30, 0x04, 0x03, 0x00, 0x00, 0x00, 0x66])
      ∧ (holding [0xFC, 0x62, 0x01, 0x30, 0x04, 0x03, 0x00, 0x00, 0x00, 0x66]).rx.byte 1 = 0x62
      ∧ pay (holding [0xFC, 0x62, 0x01, 0x30, 0x04, 0x03, 0x00, 0x00, 0x00, 0x66]) 0 = some 0x03)
      ∧ (decodeRoomTemp codec fun _ => some 0x00) = ⟨some 10, none⟩ ∧ (decodeRoomTemp codec fun _ => some 0x1F) = ⟨some 41, some 0x1F⟩
      ∧ (decodeRoomTemp codec fun _ => some 0x20) = ⟨none, some 0x20⟩ := by
  unfold ValidFrame pay; decide

theorem witness_FrameRowsRespond : (0x01 : Byte) ≠ 0x02 ∧ (0x01 : Byte) ≠ 0x03 ∧ (0x04 : Byte) ≠ 0x02 ∧ (0x04 : Byte) ≠ 0x03 := by decide

theorem witness_RxDecodeRunsTheHeldFrame :
    ((holding fullFrame).rx.cursor ≤ 32 ∧ decodeFrame (holding okFrame).rx.held = .ok (.frameStatusOk [], []))
      ∧ decodeFrame (holding [0xFC, 0x00, 0x01, 0x30, 0x00, 0xCF]).rx.held = .error .unrecognizedKind
      ∧ decodeFrame State.reset.rx.held = .error .incomplete
      ∧ decodeFrame (holding [0xFC, 0x61, 0x01, 0x30, 0x00, 0x6F]).rx.held = .error .invalid :=
  ⟨⟨by decide, by rfl⟩, by rfl, by rfl, by rfl⟩

/-- A state for each row of the transition table. -/
theorem witness_FrameStateTransitions :
    State.reset.rx.frameState = .empty
      ∧ ((holding (fullFrame.take 31)).rx.frameState = .accumulating ∧ (holding (fullFrame.take 31)).rx.cursor < 32)
      ∧ ((holding [0xFC, 0x61, 0x01, 0x30, 0x00, 0x6F]).rx.frameState = .completeInvalid)
      ∧ ((holding okFrame).rx.frameState = .completeValid ∧ (holding okFrame).rx.cursor < 32)
      ∧ (holding fullFrame).rx.frameState = .completeValid
      ∧ (holding (fullFrame.set 31 0x3C)).rx.frameState = .completeInvalid
      ∧ (holding (fullFrame.set 4 0x1B)).rx.frameState = .accumulating := by decide

theorem witness_CompleteFrameIsStable :
    ((holding okFrame).rx.complete = true ∧ (holding okFrame).rx.cursor < 32)
      ∧ (holding (okFrame ++ List.replicate 25 0x11)).rx.complete = true
      ∧ (holding (okFrame ++ List.replicate 25 0x11)).rx.cursor = 31 := by decide

theorem witness_ResponsesReadOnlyTheFrame :
    (holding okFrame).rx.cursor ≤ 32 ∧ (holding okFrame).rx.complete = true
      ∧ 6 + ((holding okFrame).rx.byte 4).toNat ≤ (holding (okFrame ++ [0xAA])).rx.cursor
      ∧ ∀ i < 6 + ((holding okFrame).rx.byte 4).toNat, (holding (okFrame ++ [0xAA])).rx.byte i = (holding okFrame).rx.byte i := by
  decide

/-- Vector A2's noise and frame, and the longest payload. -/
theorem witness_ResynchronizationAfterNoise :
    frame 0x61 [] = okFrame ∧ ([] : List Byte).length ≤ 26 ∧ (List.replicate 26 (0x00 : Byte)).length ≤ 26 ∧ State.reset.rx.cursor = 0
      ∧ ∀ b ∈ [0x00, (0x33 : Byte)], b ≠ 0xFC := ⟨by decide, by decide, by decide, rfl, by decide⟩

/-- A frame of a listed type with the longest payload, and vector B19's frame of an unlisted type. -/
theorem witness_PushedFrameIsDecoded :
    (List.replicate 26 (0x00 : Byte)).length ≤ 26 ∧ State.reset.rx.cursor = 0
      ∧ encode (.frameStatusNotOk (List.replicate 26 0)) = .wire (frame 0x7A (List.replicate 26 0))
      ∧ frame 0x7A (List.replicate 26 0) = fullFrame ∧ ¬ UnlistedType 0x7A
      ∧ frame 0x63 [0x01, 0x02] = [0xFC, 0x63, 0x01, 0x30, 0x02, 0x01, 0x02, 0x67] ∧ UnlistedType 0x63 := by
  unfold UnlistedType; and_intros <;> decide

theorem witness_EncodedFramesLoopBack :
    State.reset.rx.cursor = 0 ∧ (∃ t, exec .txConnect State.reset = .next t)
      ∧ (∃ t, exec (.txInfoReq .roomTemp) State.reset = .next t) ∧ ∃ t, exec (.txSettings recordB6) State.reset = .next t :=
  ⟨rfl, ⟨_, rfl⟩, ⟨_, rfl⟩, ⟨_, rfl⟩⟩

theorem witness_DecodedValuesAreReal :
    (∃ t, exec .rxDecode (holding replyB6) = .next t ∧ t.response = some (.decoded (.curSettings recordB6)))
      ∧ ∃ t, exec .rxDecode (holding [0xFC, 0x62, 0x01, 0x30, 0x04, 0x03, 0x00, 0x00, 0x00, 0x66]) = .next t
        ∧ t.response = some (.decoded (.curRoomTemp ⟨some 10, none⟩)) :=
  ⟨⟨_, rfl, by decide⟩, ⟨_, rfl, by decide⟩⟩

theorem witness_EveryStepKeepsTheInvariants :
    ∃ s t : State, s.Inv ∧ s.pending ≠ [] ∧ step s = .next t :=
  ⟨{ holding okFrame with pending := [⟨0x1000, 0⟩] }, _, by decide, by decide, rfl⟩

theorem witness_RunningSumGivesTheSameValidity : Rx.empty.cursor = 0 ∧ Rx.empty.Inv := by decide

/-- An RX command in two states with one receive side, a TX command in two states with one transmit side, a conversion. -/
theorem witness_RxAndTxShareNoState :
    (isRx (.rxPush 0xFC) = true ∧ (after .txConnect State.reset).rx = State.reset.rx ∧ ∃ t, exec (.rxPush 0xFC) State.reset = .next t)
      ∧ (isTx (.txRead 0) = true ∧ (holding okFrame).tx = State.reset.tx ∧ ∃ t, exec (.txRead 0) State.reset = .next t)
      ∧ (isRx (.cvT2b 16) = false ∧ isTx (.cvT2b 16) = false ∧ ∃ t, exec (.cvT2b 16) State.reset = .next t) :=
  ⟨⟨rfl, rfl, _, rfl⟩, ⟨rfl, rfl, _, rfl⟩, ⟨rfl, rfl, _, rfl⟩⟩

theorem witness_RxAndTxCommandsCommute :
    ∃ a ab b ba : State, isRx .rxReset = true ∧ isTx .txConnect = true ∧ exec .rxReset (holding okFrame) = .next a
      ∧ exec .txConnect a = .next ab ∧ exec .txConnect (holding okFrame) = .next b ∧ exec .rxReset b = .next ba :=
  ⟨_, _, _, _, rfl, rfl, rfl, rfl, rfl, rfl⟩

theorem witness_ReadsChangeNothing : readsOnly .rxDecode = true ∧ ∃ t, exec .rxDecode State.reset = .next t := ⟨rfl, _, rfl⟩

theorem witness_ValidityIsASumTest :
    (holding fullFrame).rx.cursor ≤ 32 ∧ (holding fullFrame).rx.complete = true ∧ (holding fullFrame).rx.byte 0 = 0xFC
      ∧ (holding fullFrame).rx.byte 2 = 0x01 ∧ (holding fullFrame).rx.byte 3 = 0x30 := by decide

/-- The first and the last byte a flip may fall on, and the first and the last bit. -/
theorem witness_SingleBitFlipIsCaught :
    (holding connectFrame).rx.cursor ≤ 32 ∧ (holding connectFrame).rx.valid = true ∧ 0 < 8 ∧ 7 < 8
      ∧ (5 ≤ 5 + ((holding connectFrame).rx.byte 4).toNat) ∧ 5 + ((holding connectFrame).rx.byte 4).toNat = 7 := by decide

/-- The top reserved bit, the highest reserved index, and an operand with neither. -/
theorem witness_TxSettingsResult :
    (0x01 : Byte) ≠ 0 ∧ ReservedPortBits ⟨0x1200, 0x08000000⟩
      ∧ (¬ ReservedPortBits ⟨0x1200, 0x0003C000⟩ ∧ ReservedIndex ⟨0x1200, 0x0003C000⟩)
      ∧ (¬ ReservedPortBits ⟨0x1200, 0x00B54457⟩ ∧ ¬ ReservedIndex ⟨0x1200, 0x00B54457⟩) := by
  unfold ReservedPortBits ReservedIndex; and_intros <;> decide

/-- One degree below the range, and one above it. -/
theorem witness_OutOfRangeTemperatureIsSent :
    (⟨none, none, none, none, none, some 40⟩ : Settings).wf = true ∧ ((15 : Int) < 16 ∨ 31 < (15 : Int)) ∧ ((32 : Int) < 16 ∨ 31 < (32 : Int)) :=
  ⟨by decide, by decide, by decide⟩

theorem witness_SettingsFrameDeterminesTheRecord :
    (∀ d, recordB6.temp = some d → 16 ≤ d ∧ d ≤ 31) ∧ ∃ t, exec (.txSettings recordB6) State.reset = .next t := by
  refine ⟨fun d h => ?_, _, rfl⟩
  injection h with h; omega

/-- The first index past an 8-byte frame. -/
theorem witness_TxReadResult : (after .txConnect State.reset).tx.Inv ∧ (after .txConnect State.reset).tx.len ≤ (8 : BitVec 5).toNat := by
  decide

/-- Both ends of each domain, and one past each. -/
theorem witness_CvT2bResult : ((16 : Int) ≤ 16 ∧ (16 : Int) ≤ 31) ∧ ((16 : Int) ≤ 31 ∧ (31 : Int) ≤ 31)
    ∧ ((15 : Int) < 16 ∨ 31 < (15 : Int)) ∧ ((32 : Int) < 16 ∨ 31 < (32 : Int)) := by decide
theorem witness_CvB2tResult : (0x0F : Byte).toNat ≤ 0x0F ∧ 0x0F < (0x10 : Byte).toNat := by decide
theorem witness_CvR2bResult : ((10 : Int) ≤ 10 ∧ (10 : Int) ≤ 41) ∧ ((10 : Int) ≤ 41 ∧ (41 : Int) ≤ 41)
    ∧ ((9 : Int) < 10 ∨ 41 < (9 : Int)) ∧ ((42 : Int) < 10 ∨ 41 < (42 : Int)) := by decide
theorem witness_CvB2rResult : (0x1F : Byte).toNat ≤ 0x1F ∧ 0x1F < (0x20 : Byte).toNat := by decide
theorem witness_LegalWordsDecode : recordB6.wf = true := by decide
theorem witness_EveryInstructionRespondsInKind : decodeCommand ⟨0x0600, 0⟩ = .error .reservedOpcode := rfl
theorem witness_TemperatureRoundTrips : ((15 : Int) < 16 ∨ 31 < (15 : Int)) ∧ ((16 : Int) ≤ 31 ∧ (31 : Int) ≤ 31) ∧ ((10 : Int) ≤ 41 ∧ (41 : Int) ≤ 41)
    ∧ (0x0F : Byte).toNat ≤ 0x0F ∧ (0x1F : Byte).toNat ≤ 0x1F := by decide

/-- The block's own tables of wire codes are injective (R129). -/
theorem witness_UnwireInvertsWire :
    Function.Injective codec.power.wire ∧ Function.Injective codec.mode.wire ∧ Function.Injective codec.fan.wire
      ∧ Function.Injective codec.vane.wire ∧ Function.Injective codec.wideVane.wire := by
  refine ⟨?_, ?_, ?_, ?_, ?_⟩ <;> intro a b h <;> revert h <;> cases a <;> cases b <;> decide

theorem witness_StringConversions :
    (∀ v, codec.power.name v ≠ "On") ∧ (∀ v, codec.mode.name v ≠ "Cool") ∧ (∀ v, codec.fan.name v ≠ "turbo")
      ∧ (∀ v, codec.vane.name v ≠ "") ∧ ∀ v, codec.wideVane.name v ≠ "left" := by
  refine ⟨?_, ?_, ?_, ?_, ?_⟩ <;> intro v <;> cases v <;> decide

theorem witness_SettingsEquality :
    (⟨some .on, none, none, none, none, some 22⟩ : Settings).power = some .on
      ∧ (⟨some .on, some .cool, none, none, none, none⟩ : Settings).power = some .on := ⟨rfl, rfl⟩

end Sys2Proof.Tests
end

/-! PROOFS. The state and its two sides (spec/10_state.md): what a step keeps, how a pushed byte moves the frame state machine,
and that the register of a running sum gives the same validity. -/

namespace Sys2Proof.Machine

/-! ## A pushed byte, by the state of the buffer (R161 to R164) -/

section Push

variable {p : FullValidPolicy} {b : Byte} {r : Rx}

theorem Rx.push_empty_of_ne_start (hc : r.cursor = 0) (hb : b ≠ 0xFC) : r.push p b = r := by
  rw [Rx.push, if_neg (by simp [hc]), Rx.take, if_pos hc, if_neg hb]

theorem Rx.push_empty_of_start (hc : r.cursor = 0) (hb : b = 0xFC) : r.push p b = r.append b := by
  simp [Rx.push, Rx.take, hc, hb]

theorem Rx.push_of_room (h0 : r.cursor ≠ 0) (hc : r.cursor < 32) : r.push p b = r.append b := by
  simp [Rx.push, Rx.take, h0, Nat.ne_of_lt hc]

theorem Rx.push_full_of_drop (hc : r.cursor = 32) (hv : r.valid = true) (hp : p = .drop) : r.push p b = r := by
  simp [Rx.push, hc, hv, hp]

/-- The overflow reset (R163): a full buffer is emptied and the byte meets the empty-state rule. -/
theorem Rx.push_full_of_reset (hc : r.cursor = 32) (hv : ¬ (r.valid = true ∧ p = .drop)) :
    r.push p b = if b = 0xFC then Rx.empty.append b else Rx.empty := by
  simp [Rx.push, Rx.take, hc, hv]

end Push

/-! ## The frame state after an append (R28 to R30) -/

section Append

variable {b : Byte} {r : Rx}

theorem Rx.complete_eq_false_iff : r.complete = false ↔ r.cursor < 5 ∨ r.cursor < 6 + r.payloadLen := by
  rw [← Bool.not_eq_true, Rx.complete_iff]
  omega

/-- Above the length byte an append leaves the declared length. -/
theorem Rx.append_payloadLen (h : 5 ≤ r.cursor) : (r.append b).payloadLen = r.payloadLen := by
  simp only [Rx.payloadLen]
  rw [Rx.append_byte b r (by decide), if_neg (by omega)]

/-- An append past a complete frame leaves the frame's bytes. -/
theorem Rx.append_byte_of_complete (h : r.complete = true) (hc : r.cursor ≤ 32) {i : Nat} (hi : i < 6 + r.payloadLen) :
    (r.append b).byte i = r.byte i := by
  obtain ⟨_, hL⟩ := (Rx.complete_iff r).1 h
  rw [Rx.append_byte b r (by omega), if_neg (by omega)]

/-- The completion point of R29: an incomplete frame is completed by its byte number `6 + L` and by no other. -/
theorem Rx.append_complete_iff (h : r.complete = false) :
    (r.append b).complete = true ↔ 5 ≤ r.cursor + 1 ∧ 6 + (r.append b).payloadLen = r.cursor + 1 := by
  rw [Rx.complete_eq_false_iff] at h
  rw [Rx.complete_iff, Rx.append_cursor]
  by_cases h5 : 5 ≤ r.cursor
  · rw [Rx.append_payloadLen h5]; omega
  · omega

/-- What RX_DECODE answers depends on the bytes of the frame alone (R178). -/
theorem Rx.decoded_congr (c : Params) {q : Rx} (hc : r.cursor ≤ 32) (h : r.complete = true)
    (hq : 6 + r.payloadLen ≤ q.cursor) (hb : ∀ i < 6 + r.payloadLen, q.byte i = r.byte i) : q.decoded c = r.decoded c := by
  obtain ⟨hL, _, hv, hpl⟩ := Rx.answers_congr hc h hq hb
  have hpay : q.pay = r.pay := by
    funext k
    simp only [Rx.pay, hL]
    split
    · next hk => rw [hpl k hk]
    · rfl
  simp only [Rx.decoded, hv, hpay, hb 1 (by omega)]

/-- A stale byte changes no answer about a complete frame (R30, R165). -/
theorem Rx.append_answers (c : Params) (h : r.complete = true) (hc : r.cursor ≤ 32) :
    (r.append b).complete = true ∧ (r.append b).valid = r.valid ∧ (r.append b).decoded c = r.decoded c := by
  have hq : 6 + r.payloadLen ≤ (r.append b).cursor := Nat.le_succ_of_le ((Rx.complete_iff r).1 h).2
  have hb : ∀ i < 6 + r.payloadLen, (r.append b).byte i = r.byte i := fun i => Rx.append_byte_of_complete h hc
  obtain ⟨_, hcomplete, hvalid, _⟩ := Rx.answers_congr hc h hq hb
  exact ⟨hcomplete, hvalid, Rx.decoded_congr c hc h hq hb⟩

@[simp] theorem Rx.empty_frameState : Rx.empty.frameState = .empty := rfl

theorem Rx.append_frameState_ne_empty : (r.append b).frameState ≠ .empty := by
  simp [(Rx.frameState_iff _).1]

/-- The first byte of a frame leaves it incomplete. -/
theorem Rx.append_frameState_of_empty (h0 : r.cursor = 0) : (r.append b).frameState = .accumulating := by
  have hincomplete : (r.append b).complete = false := by rw [Rx.complete_eq_false_iff, Rx.append_cursor]; omega
  exact (Rx.frameState_iff _).2.1.2 ⟨by simp, hincomplete⟩

/-- A byte past a complete frame leaves its frame state. -/
theorem Rx.append_frameState_of_complete (h : r.complete = true) (hc : r.cursor ≤ 32) :
    (r.append b).frameState = r.frameState := by
  obtain ⟨h5, _⟩ := (Rx.complete_iff r).1 h
  obtain ⟨hcomplete, hvalid, _⟩ := Rx.append_answers (b := b) codec h hc
  have h0 : r.cursor ≠ 0 := by omega
  simp [Rx.frameState, h, hcomplete, hvalid, h0]

end Append

/-! ## The frame state after a pushed byte (R29) -/

@[simp] theorem codec_fullValidPolicy : codec.fullValidPolicy = Config.fullValidPolicy := rfl

/-- The overflow row of R29: the byte that resets a full buffer leaves it Empty, or Accumulating when it is the marker. -/
theorem Rx.push_full_frameState {p : FullValidPolicy} {b : Byte} {r : Rx} (hc : r.cursor = 32)
    (hv : ¬ (r.valid = true ∧ p = .drop)) :
    (r.push p b).frameState = if b = 0xFC then .accumulating else .empty := by
  rw [Rx.push_full_of_reset hc hv]
  split
  · exact Rx.append_frameState_of_empty rfl
  · rfl

/-- The accumulating row of R29: an incomplete frame becomes complete exactly when the cursor reaches `6 + L`. -/
theorem Rx.append_frameState_of_accumulating {b : Byte} {r : Rx} (h : r.complete = false) :
    (r.append b).frameState ≠ .accumulating ↔ 5 ≤ r.cursor + 1 ∧ 6 + (r.append b).payloadLen = r.cursor + 1 := by
  rw [← Rx.append_complete_iff h, Ne, (Rx.frameState_iff _).2.1]
  simp

/-- A full buffer without a complete frame holds a length that no buffer can complete (R25). -/
theorem Rx.payloadLen_of_full {r : Rx} (hc : r.cursor = 32) (h : r.complete = false) : 26 < r.payloadLen := by
  rw [Rx.complete_eq_false_iff] at h
  omega

/-! ## Steps and the invariants -/

/-- With nothing pending a step keeps the state. -/
theorem step_of_idle {s : State} (h : s.pending = []) : step s = .next s := by simp [step, fetch, h]

/-- The next state of a meaning, field by field. -/
theorem exec_next_iff {i : Instr} {s t : State} :
    exec i s = .next t ↔
      t = ⟨rxAfter i s.rx, txAfter i s.tx, some (responseOf i s.rx s.tx), s.refusalMark, s.pending⟩ := by
  rw [exec_spec, Host.Outcome.next.injEq, eq_comm]

/-- Every meaning keeps the invariant of the block. -/
theorem exec_Inv {i : Instr} {s t : State} (h : s.Inv) (he : exec i s = .next t) : t.Inv := by
  obtain ⟨hrx, htx⟩ := h
  rw [exec_next_iff] at he
  subst he
  exact ⟨rxAfter_Inv i hrx, txAfter_Inv i htx⟩

/-! ## Which side each group of instructions reads and writes (R35, R37, R210) -/

open Sys2Proof.Claims

theorem txAfter_of_not_isTx {i : Instr} (t : Tx codec.txCap) (h : isTx i = false) : txAfter i t = t := by
  unfold txAfter
  split
  · cases h
  · cases h
  · cases h
  · rfl

theorem rxAfter_of_not_isRx {i : Instr} (r : Rx) (h : isRx i = false) : rxAfter i r = r := by
  unfold rxAfter
  split
  · cases h
  · cases h
  · rfl

theorem not_isTx_of_isRx {i : Instr} : isRx i = true → isTx i = false := by
  cases i <;> simp [isRx, isTx]

theorem not_isRx_of_isTx {i : Instr} : isTx i = true → isRx i = false := by
  cases i <;> simp [isRx, isTx]

/-- The response of an RX command is the same over every transmit side. -/
theorem responseOf_of_isRx {i : Instr} (r : Rx) (t t' : Tx codec.txCap) :
    isRx i = true → responseOf i r t = responseOf i r t' := by
  cases i <;> simp [isRx, responseOf]

/-- The response of a TX command is the same over every receive side. -/
theorem responseOf_of_isTx {i : Instr} (r r' : Rx) (t : Tx codec.txCap) :
    isTx i = true → responseOf i r t = responseOf i r' t := by
  cases i <;> simp [isTx, responseOf]

/-! ## The checksum as a sum test, and the register of R31 -/

/-- One more byte of a buffer. -/
theorem firstBytes_succ {size : Nat} (buf : Buffer size) {n : Nat} (h : n < size) :
    firstBytes buf (n + 1) = firstBytes buf n ++ [byteAt buf n] := by
  simp [firstBytes, byteAt, List.take_add_one, h]

/-- A complete frame with its header constants is valid exactly when its bytes, the checksum included, sum to 0xFC (R121). -/
theorem Rx.valid_iff_byteSum {r : Rx} (hc : r.cursor ≤ 32) (h : r.complete = true) (h0 : r.byte 0 = 0xFC)
    (h2 : r.byte 2 = 0x01) (h3 : r.byte 3 = 0x30) :
    r.valid = true ↔ byteSum (firstBytes r.buf (6 + r.payloadLen)) % 256 = 0xFC := by
  have hlen := (Rx.complete_iff r).1 h
  have hsum : byteSum (firstBytes r.buf (6 + r.payloadLen))
      = byteSum (firstBytes r.buf (5 + r.payloadLen)) + (r.byte (5 + r.payloadLen)).toNat := by
    rw [show 6 + r.payloadLen = 5 + r.payloadLen + 1 by omega, firstBytes_succ _ (by simp only [rxCap]; omega)]
    simp [Rx.byte]
  rw [Rx.valid_iff, hsum, ← eq_chk_iff]
  exact ⟨fun ⟨_, _, hchk⟩ => hchk, fun hchk => ⟨hlen, ⟨h0, h2, h3⟩, hchk⟩⟩

/-- The checksum from a sum kept modulo 256, as the register keeps it. -/
theorem chk_eq_sub (bs : List Byte) : chk bs = BitVec.ofNat 8 Wire.chkBase - BitVec.ofNat 8 (byteSum bs) := by
  apply BitVec.eq_of_toNat_eq
  rw [chk_toNat, BitVec.toNat_sub, BitVec.toNat_ofNat, BitVec.toNat_ofNat]
  simp only [Wire.chkBase]
  omega

/-- How many held bytes the register of R31 has added: those below `5 + L`. -/
def Rx.summed (r : Rx) : Nat := min r.cursor (5 + r.payloadLen)

/-- An append adds a byte to the register exactly when its index is below `5 + L`. -/
theorem Rx.append_summed (b : Byte) (r : Rx) :
    (r.append b).summed = if r.cursor < 5 + r.payloadLen then r.cursor + 1 else r.summed := by
  simp only [Rx.summed, Rx.append_cursor]
  by_cases h5 : 5 ≤ r.cursor
  · rw [Rx.append_payloadLen h5]
    split <;> omega
  · rw [if_pos (by omega)]
    omega

/-- The register holds the sum of the bytes it has added, over a receive side with the invariant of R22 to R24. -/
def SumRx.Tracks (t : SumRx) : Prop :=
  t.base.Inv ∧ t.sum = BitVec.ofNat 8 (byteSum (firstBytes t.base.buf t.base.summed))

theorem SumRx.tracks_of_cursor_zero {r : Rx} (h : r.Inv) (hc : r.cursor = 0) : (⟨r, 0⟩ : SumRx).Tracks := by
  refine ⟨h, ?_⟩
  simp [Rx.summed, hc, firstBytes]

theorem SumRx.clear_tracks (t : SumRx) : t.clear.Tracks := SumRx.tracks_of_cursor_zero Rx.empty_Inv rfl

/-- A register that holds its sum gives the recomputed validity. -/
theorem SumRx.Tracks.valid_eq {t : SumRx} (h : t.Tracks) : t.valid = t.base.valid := by
  obtain ⟨_, hsum⟩ := h
  cases hcomplete : t.base.complete with
  | false => simp [SumRx.valid, Rx.valid, hcomplete]
  | true =>
    have hs : t.base.summed = 5 + t.base.payloadLen := by
      have := (Rx.complete_iff t.base).1 hcomplete
      simp only [Rx.summed]
      omega
    simp only [SumRx.valid, Rx.valid, Rx.checksumOk, chk_eq_sub, hsum, hs]

/-- An append with room keeps the register's sum. -/
theorem SumRx.Tracks.append {t : SumRx} {b : Byte} (h : t.Tracks) (hc : t.base.cursor < 32)
    (h0 : t.base.cursor = 0 → b = 0xFC) : (t.append b).Tracks := by
  obtain ⟨hinv, hsum⟩ := h
  refine ⟨Rx.append_Inv hinv hc h0, ?_⟩
  simp only [SumRx.append, Rx.append_summed, Rx.append_buf]
  by_cases hL : t.base.cursor < 5 + t.base.payloadLen
  · have hs : t.base.summed = t.base.cursor := by simp only [Rx.summed]; omega
    rw [if_pos (.inr hL), if_pos hL, firstBytes_set_succ _ _ hc, hsum, hs]
    simp [BitVec.ofNat_add]
  · have hle : t.base.summed ≤ t.base.cursor := by simp only [Rx.summed]; omega
    rw [if_neg (by omega), if_neg hL, firstBytes_set_of_le _ _ hle (by simp only [rxCap]; omega), hsum]

/-- A pushed byte keeps the register's sum and moves the buffer as RX_PUSH does, in each thing RX_PUSH can do. -/
theorem SumRx.Tracks.push {t : SumRx} (p : FullValidPolicy) (b : Byte) (h : t.Tracks) :
    (t.push p b).Tracks ∧ (t.push p b).base = t.base.push p b := by
  have hv := h.valid_eq
  -- simp writes the marker 0xFC of the model as 252#8
  have ne_marker : b ≠ 0xFC → ¬ b = 252#8 := id
  rcases Rx.push_cases p b t.base with
    ⟨hc, hb, e⟩ | ⟨hc, hb, e⟩ | ⟨h0, hc, e⟩ | ⟨hc, hvalid, hp, e⟩ | ⟨hc, hd, hb, e⟩ | ⟨hc, hd, hb, e⟩ <;> rw [e]
  · have hpush : t.push p b = t := by simp [SumRx.push, hc, ne_marker hb]
    rw [hpush]
    exact ⟨h, rfl⟩
  · have hpush : t.push p b = t.append b := by simp [SumRx.push, Wire.start, hc, hb]
    rw [hpush]
    exact ⟨h.append (by omega) fun _ => hb, rfl⟩
  · have hpush : t.push p b = t.append b := by simp [SumRx.push, hc, h0]
    have ⟨⟨hle, _⟩, _⟩ := h
    rw [hpush]
    exact ⟨h.append (by omega) fun hz => absurd hz h0, rfl⟩
  · have hpush : t.push p b = t := by simp [SumRx.push, hc, hv, hvalid, hp]
    rw [hpush]
    exact ⟨h, rfl⟩
  · have hpush : t.push p b = t.clear := by simp [SumRx.push, SumRx.clear, hc, hv, hd, ne_marker hb]
    rw [hpush]
    exact ⟨t.clear_tracks, rfl⟩
  · have hpush : t.push p b = t.clear.append b := by simp [SumRx.push, SumRx.clear, Wire.start, hc, hv, hd, hb]
    rw [hpush]
    exact ⟨t.clear_tracks.append (show 0 < 32 by decide) fun _ => hb, rfl⟩

theorem SumRx.Tracks.event {t : SumRx} (p : FullValidPolicy) (e : RxEvent) (h : t.Tracks) :
    (t.event p e).Tracks ∧ (t.event p e).base = t.base.event p e := by
  cases e with
  | push b => exact h.push p b
  | reset => exact ⟨t.clear_tracks, rfl⟩

/-- The two implementations stay together over every sequence of events. -/
theorem SumRx.Tracks.events (p : FullValidPolicy) (es : List RxEvent) {t : SumRx} (h : t.Tracks) :
    (es.foldl (fun u e => u.event p e) t).Tracks
      ∧ (es.foldl (fun u e => u.event p e) t).base = es.foldl (fun r e => r.event p e) t.base := by
  induction es generalizing t with
  | nil => exact ⟨h, rfl⟩
  | cons e es ih =>
    obtain ⟨htracks, hbase⟩ := h.event p e
    rw [List.foldl_cons, List.foldl_cons, ← hbase]
    exact ih htracks

end Sys2Proof.Machine

namespace Sys2Proof.Claims

open Sys2Proof.Machine

/-- Settles O36, by the three things a step can be. -/
theorem everyStepKeepsTheInvariants : Obligations.EveryStepKeepsTheInvariants := by
  intro s t h hs
  rcases step_cases s with ⟨_, e⟩ | ⟨_, rest, _, _, _, e⟩ | ⟨_, _, _, _, _, e⟩ <;> rw [e] at hs
  · cases hs
    exact h
  · exact exec_Inv (s := { s with pending := rest }) h hs
  · cases hs

/-- Settles O35, side by side. -/
theorem invariantsHoldAtReset : Obligations.InvariantsHoldAtReset := ⟨Rx.empty_Inv, Tx.blank_Inv _⟩

/-- Settles O2, by what the next pending command decodes to. -/
theorem stepRunsTheNextCommand : Obligations.StepRunsTheNextCommand :=
  ⟨fun _ _ _ _ => step_of_ok, fun _ _ _ _ => step_of_error, fun _ => step_of_idle⟩

/-- Settles O29: the byte lands at the cursor, which is past the frame. -/
theorem completeFrameIsStable : Obligations.CompleteFrameIsStable := by
  intro s b h hc
  obtain ⟨h5, _⟩ := (Rx.complete_iff s.rx).1 h
  have hpush : rxAfter (.rxPush b) s.rx = s.rx.append b := Rx.push_of_room (by omega) hc
  refine ⟨_, exec_spec _ s, ?_⟩
  simp only [hpush]
  exact ⟨rfl, by rw [Rx.append_byte _ _ hc, if_pos rfl], fun i hi => Rx.append_byte_of_complete h (by omega) hi,
    Rx.append_answers codec h (by omega)⟩

/-- Settles O28, row by row of R29. -/
theorem frameStateTransitions : Obligations.FrameStateTransitions := by
  intro s b _
  refine ⟨_, exec_spec _ s, ?_⟩
  simp only [rxAfter, codec_fullValidPolicy]
  obtain ⟨empty_iff, accumulating_iff, valid_iff, invalid_iff⟩ := Rx.frameState_iff s.rx
  refine ⟨fun h hb => ?_, fun h hb => ?_, fun h hc => ?_, fun h hc => ?_, fun h hc => ?_, fun hc h => ?_, fun hc h => ?_,
    fun hc h => ?_, _, exec_spec _ s, rfl⟩
  · rw [Rx.push_empty_of_ne_start (empty_iff.1 h) hb]
    exact ⟨h, rfl⟩
  · have h0 := empty_iff.1 h
    rw [Rx.push_empty_of_start h0 hb]
    exact ⟨Rx.append_frameState_of_empty h0, by simp [h0]⟩
  · obtain ⟨h0, hcomplete⟩ := accumulating_iff.1 h
    rw [Rx.push_of_room h0 hc]
    exact ⟨Rx.append_frameState_ne_empty, Rx.append_frameState_of_accumulating hcomplete⟩
  · obtain ⟨h0, hcomplete, _⟩ := invalid_iff.1 h
    rw [Rx.push_of_room h0 hc, Rx.append_frameState_of_complete hcomplete (by omega), h]
  · obtain ⟨h0, hcomplete, _⟩ := valid_iff.1 h
    rw [Rx.push_of_room h0 hc, Rx.append_frameState_of_complete hcomplete (by omega), h]
  · have hv : ¬ s.rx.valid = true := fun hv => h (valid_iff.2 ⟨by omega, Rx.complete_of_valid hv, hv⟩)
    exact Rx.push_full_frameState hc fun hd => hv hd.1
  · obtain ⟨_, _, hv⟩ := valid_iff.1 h
    by_cases hp : Config.fullValidPolicy = .drop
    · rw [Rx.push_full_of_drop hc hv hp, if_pos hp, h]
    · rw [Rx.push_full_frameState hc fun hd => hp hd.2, if_neg hp]
  · exact Rx.payloadLen_of_full hc (accumulating_iff.1 h).2

/-- Settles O37: the register holds the sum of the bytes below `5 + L` after every event. -/
theorem runningSumGivesTheSameValidity : Obligations.RunningSumGivesTheSameValidity := by
  intro p es r hc hinv
  obtain ⟨htracks, hbase⟩ := (SumRx.tracks_of_cursor_zero hinv hc).events p es
  exact ⟨hbase, by rw [htracks.valid_eq, hbase]⟩

/-- Settles O38: each side of the next state, and the response, as functions of the two sides before. -/
theorem rxAndTxShareNoState : Obligations.RxAndTxShareNoState := by
  simp only [Obligations.RxAndTxShareNoState, exec_next_iff]
  refine ⟨?_, ?_, ?_⟩
  · rintro i s s' _ _ hi hrx rfl rfl
    refine ⟨txAfter_of_not_isTx s.tx (not_isTx_of_isRx hi), by rw [hrx], ?_⟩
    rw [hrx, responseOf_of_isRx s.rx s'.tx s.tx hi]
  · rintro i s s' _ _ hi htx rfl rfl
    have hr : rxAfter i s.rx = s.rx := rxAfter_of_not_isRx s.rx (not_isRx_of_isTx hi)
    refine ⟨hr, by rw [htx], ?_, by rw [hr], by rw [hr]⟩
    rw [htx, responseOf_of_isTx s'.rx s.rx s.tx hi]
  · rintro i s _ hrx htx rfl
    exact ⟨rxAfter_of_not_isRx s.rx hrx, txAfter_of_not_isTx s.tx htx⟩

/-- Settles O42: the checksum byte joins the sum it is tested against. -/
theorem validityIsASumTest : Obligations.ValidityIsASumTest := by
  refine ⟨fun c bs => ?_, fun s hc h h0 h2 h3 => Rx.valid_iff_byteSum hc h h0 h2 h3⟩
  rw [eq_chk_iff]
  simp [byteSum]

end Sys2Proof.Claims

/-! PROOFS. The two buffers as memory (spec/20_memory.md): the order of RX and TX commands is free, a command that reads leaves
both buffers, and an answer about a complete frame reads the frame's bytes alone. -/

namespace Sys2Proof.Machine

open Sys2Proof.Claims

/-! ## What a reading command leaves (R59) -/

theorem rxAfter_of_readsOnly {i : Instr} (r : Rx) (h : readsOnly i = true) : rxAfter i r = r := by
  unfold rxAfter
  split
  · cases h
  · cases h
  · rfl

theorem txAfter_of_readsOnly {i : Instr} (t : Tx codec.txCap) (h : readsOnly i = true) : txAfter i t = t := by
  unfold txAfter
  split
  · cases h
  · cases h
  · cases h
  · rfl

/-- The whole effect of a reading command is its response. -/
theorem exec_of_readsOnly {i : Instr} (s : State) (h : readsOnly i = true) :
    exec i s = Responded (responseOf i s.rx s.tx) s := by
  rw [exec_spec, rxAfter_of_readsOnly s.rx h, txAfter_of_readsOnly s.tx h]
  rfl

end Sys2Proof.Machine

namespace Sys2Proof.Claims

open Sys2Proof.Machine

/-- Settles O30: the status bits and the decoder agree on receive sides that hold the same complete frame. -/
theorem responsesReadOnlyTheFrame : Obligations.ResponsesReadOnlyTheFrame := by
  intro s t hc h hcursor hbytes
  obtain ⟨_, hcomplete, hvalid, _⟩ := Rx.answers_congr hc h hcursor hbytes
  exact ⟨hcomplete, hvalid, Rx.decoded_congr codec hc h hcursor hbytes⟩

/-- Settles O39: the RX command finds the receive side as it was before the TX command, and the TX command the transmit side, so
each does and answers the same in both orders. -/
theorem rxAndTxCommandsCommute : Obligations.RxAndTxCommandsCommute := by
  simp only [Obligations.RxAndTxCommandsCommute, exec_next_iff]
  rintro i j s _ _ _ _ hi hj rfl rfl rfl rfl
  have hrx : ∀ r, rxAfter j r = r := fun r => rxAfter_of_not_isRx r (not_isRx_of_isTx hj)
  have htx : ∀ t, txAfter i t = t := fun t => txAfter_of_not_isTx t (not_isTx_of_isRx hi)
  simp only [hrx, htx]
  exact ⟨⟨rfl, rfl⟩, congrArg some (responseOf_of_isRx s.rx s.tx _ hi), congrArg some (responseOf_of_isTx _ s.rx s.tx hj)⟩

/-- Settles O40: the second command reads the same two sides as the first, so it writes the response that is there already. -/
theorem readsChangeNothing : Obligations.ReadsChangeNothing := by
  intro i s h
  refine ⟨_, exec_of_readsOnly s h, fun t ht => ?_⟩
  rw [exec_of_readsOnly s h] at ht
  cases ht
  exact exec_of_readsOnly _ h

end Sys2Proof.Claims

/-! PROOFS. The encodings (spec/30_encoding.md): what spells a command and what spells a frame, the layouts of the operand and
result ports, and RX_DECODE as the wire decoder over the held bytes. -/

namespace Sys2Proof

open Sys2Proof.Machine Sys2Proof.Claims

/-! ## The operand port of TX_SETTINGS (R77 to R81) -/

/-- A port unpacks exactly when its reserved bits are zero and each enum field unpacks by itself. -/
theorem unpackSettings_eq_ok_iff {p : Port32} {st : Settings} :
    unpackSettings p = .ok st ↔ bitsAt p.toNat 27 5 = 0
      ∧ (unpackField allPower p.toNat 0 1 = .ok st.power ∧ unpackField allMode p.toNat 2 3 = .ok st.mode
        ∧ unpackField allFan p.toNat 6 3 = .ok st.fan ∧ unpackField allVane p.toNat 10 3 = .ok st.vane
        ∧ unpackField allWideVane p.toNat 14 3 = .ok st.wideVane)
      ∧ unpackTemp p.toNat = st.temp := by
  unfold unpackSettings
  by_cases hres : bitsAt p.toNat 27 5 = 0
  · simp only [hres, ne_eq, not_true_eq_false, if_false, true_and]
    constructor
    · intro h
      split at h
      · cases h
        simp_all
      · cases h
    · rintro ⟨⟨hpower, hmode, hfan, hvane, hwide⟩, htemp⟩
      simp only [hpower, hmode, hfan, hvane, hwide, htemp]
  · simp [hres]

/-- The temperature on a port is a signed byte. -/
theorem wf_of_unpackSettings {p : Port32} {st : Settings} (h : unpackSettings p = .ok st) : st.wf = true := by
  obtain ⟨_, _, htemp⟩ := unpackSettings_eq_ok_iff.1 h
  rw [Settings.wf, ← htemp, unpackTemp]
  split
  · rfl
  · next d hd =>
    split at hd
    · cases hd
    · cases hd
      exact toInt_fits _

/-! ## The command decoder (R70 to R74) -/

theorem mustBeZero_eq_ok_iff {imm : Byte} {lo : Nat} {i j : Instr} :
    mustBeZero imm lo i = .ok j ↔ imm.toNat / 2 ^ lo = 0 ∧ i = j := by
  unfold mustBeZero
  split <;> simp_all

theorem mustBeZero_of_ne {imm : Byte} {lo : Nat} {i : Instr} (h : imm.toNat / 2 ^ lo ≠ 0) :
    mustBeZero imm lo i = .error .nonZeroReservedBits := if_neg h

theorem decodeTxSettings_eq_ok_iff {imm : Byte} {p : Port32} {i : Instr} :
    decodeTxSettings imm p = .ok i ↔ imm = 0x00 ∧ ∃ st, unpackSettings p = .ok st ∧ i = .txSettings st := by
  have himm : imm.toNat = 0 ↔ imm = 0x00 := BitVec.toNat_inj (y := 0x00)
  rw [← himm, decodeTxSettings]
  by_cases h0 : imm.toNat = 0
  · cases hp : unpackSettings p <;> simp [h0, eq_comm]
  · simp [h0]

theorem eq_zero_of_div_pow_zero {imm : Byte} (h : imm.toNat / 2 ^ 0 = 0) : imm = 0x00 := by
  apply BitVec.eq_of_toNat_eq
  simpa using h

theorem kindImm_kindOf {imm : Byte} (h : imm.toNat / 2 ^ 1 = 0) : kindImm (kindOf imm) = imm := by
  revert imm; decide

theorem setWidth_low_five {imm : Byte} (h : imm.toNat / 2 ^ 5 = 0) : (imm.extractLsb' 0 5).setWidth 8 = imm := by
  revert imm; decide

/-- A command spells an instruction: its word is the word of the instruction's encoding, and for TX_SETTINGS its port unpacks to
the record. -/
def Command.Spells (c : Command) (i : Instr) : Prop :=
  i.wf = true ∧ (∃ p, encode i = .command ⟨c.word, p⟩) ∧ ∀ st, i = .txSettings st → unpackSettings c.settingsIn = .ok st

theorem cmdWord_of_op {w : CmdWord} (op : Byte) (hop : (cmdOp w).toNat = op.toNat) : cmdWord op (cmdImm w) = w := by
  rw [← BitVec.eq_of_toNat_eq hop, cmdWord_fields]

section Spelling

variable {c : Command} {i : Instr} (op : Byte)

/-- Of a command without an operand the word's two fields are all that spells it. -/
theorem Command.spells_of_fields (hop : (cmdOp c.word).toNat = op.toNat) (hwf : i.wf = true)
    (he : encode i = cmdPacket op (cmdImm c.word)) (hi : ∀ st, i ≠ .txSettings st := by simp) : c.Spells i :=
  ⟨hwf, ⟨0, by rw [he, cmdPacket, cmdWord_of_op op hop]⟩, fun st h => absurd h (hi st)⟩

/-- The rows of R72 without an immediate. -/
theorem Command.spells_of_mustBeZero {j : Instr} (hop : (cmdOp c.word).toNat = op.toNat)
    (h : mustBeZero (cmdImm c.word) 0 i = .ok j) (hwf : i.wf = true) (he : encode i = cmdPacket op 0x00)
    (hi : ∀ st, i ≠ .txSettings st := by simp) : c.Spells j := by
  obtain ⟨h0, rfl⟩ := mustBeZero_eq_ok_iff.1 h
  exact spells_of_fields op hop hwf (by rw [he, eq_zero_of_div_pow_zero h0]) hi

end Spelling

/-- Row by row of the opcode map. -/
theorem Command.spells_of_decode {c : Command} {i : Instr} (h : decodeCommand c = .ok i) : c.Spells i := by
  unfold decodeCommand at h
  split at h
  case h_1 hop => cases h; exact spells_of_fields 0x01 hop rfl rfl
  case h_2 hop => exact spells_of_mustBeZero 0x02 hop h rfl rfl
  case h_3 hop => exact spells_of_mustBeZero 0x03 hop h rfl rfl
  case h_4 hop => exact spells_of_mustBeZero 0x04 hop h rfl rfl
  case h_5 hop => exact spells_of_mustBeZero 0x05 hop h rfl rfl
  case h_6 hop => exact spells_of_mustBeZero 0x10 hop h rfl rfl
  case h_7 hop =>
    obtain ⟨h0, rfl⟩ := mustBeZero_eq_ok_iff.1 h
    exact spells_of_fields 0x11 hop rfl (by rw [encode, kindImm_kindOf h0])
  case h_8 hop =>
    obtain ⟨h0, st, hst, rfl⟩ := decodeTxSettings_eq_ok_iff.1 h
    have hword : cmdWord 0x12 0x00 = c.word := by rw [← h0, cmdWord_of_op 0x12 hop]
    exact ⟨wf_of_unpackSettings hst, ⟨_, by rw [encode, hword]⟩, fun _ e => by cases e; exact hst⟩
  case h_9 hop =>
    obtain ⟨h0, rfl⟩ := mustBeZero_eq_ok_iff.1 h
    exact spells_of_fields 0x13 hop rfl (by rw [encode, setWidth_low_five h0])
  case h_10 hop => cases h; exact spells_of_fields 0x20 hop (toInt_fits _) (by simp [encode])
  case h_11 hop => cases h; exact spells_of_fields 0x21 hop rfl rfl
  case h_12 hop => cases h; exact spells_of_fields 0x22 hop (toInt_fits _) (by simp [encode])
  case h_13 hop => cases h; exact spells_of_fields 0x23 hop rfl rfl
  case h_14 => cases h

theorem extractLsb'_setWidth_five (j : BitVec 5) : (j.setWidth 8).extractLsb' 0 5 = j := by
  revert j; decide

theorem setWidth_five_div (j : BitVec 5) : (j.setWidth 8).toNat / 2 ^ 5 = 0 := by
  revert j; decide

/-- The encodings decode, instruction by instruction. -/
theorem Command.Spells.decode {c : Command} {i : Instr} (h : c.Spells i) : decodeCommand c = .ok i := by
  obtain ⟨hwf, ⟨p, he⟩, hst⟩ := h
  obtain ⟨w, q⟩ := c
  cases i <;> simp only [encode, cmdPacket, Packet.command.injEq, Command.mk.injEq, reduceCtorEq] at he <;>
    obtain ⟨rfl, -⟩ := he
  case txSettings st => simp [decodeCommand, decodeTxSettings, hst]
  case txInfoReq k => cases k <;> simp [decodeCommand, mustBeZero, kindImm, kindOf]
  case txRead j =>
    simp only [decodeCommand, cmdOp_cmdWord, cmdImm_cmdWord]
    exact mustBeZero_eq_ok_iff.2 ⟨setWidth_five_div j, by rw [extractLsb'_setWidth_five]⟩
  case cvT2b d => simp [decodeCommand, toInt_ofInt_of_fits (d := d) hwf]
  case cvR2b d => simp [decodeCommand, toInt_ofInt_of_fits (d := d) hwf]
  all_goals simp [decodeCommand, mustBeZero]

/-- The command decoder answers an instruction exactly on the commands that spell it. -/
theorem decodeCommand_eq_ok_iff {c : Command} {i : Instr} : decodeCommand c = .ok i ↔ c.Spells i :=
  ⟨Command.spells_of_decode, Command.Spells.decode⟩

/-- The encoding of a well-formed command spells it. -/
theorem Command.spells_of_encode {c : Command} {i : Instr} (hwf : i.wf = true) (he : encode i = .command c) : c.Spells i := by
  refine ⟨hwf, ⟨c.settingsIn, he⟩, ?_⟩
  rintro st rfl
  cases he
  exact unpack_pack hwf

/-- A command without an operand is spelled whatever stands on the port (R71). -/
theorem Command.Spells.any_port {c : Command} {i : Instr} (h : c.Spells i) (hi : ∀ st, i ≠ .txSettings st) (p : Port32) :
    Spells ⟨c.word, p⟩ i := by
  obtain ⟨hwf, he, _⟩ := h
  exact ⟨hwf, he, fun st hst => absurd hst (hi st)⟩

/-- The word of a command without an operand decodes whatever stands on the port. -/
theorem decodeCommand_of_encode {i : Instr} {w : CmdWord} (p : Port32) {q : Port32} (hwf : i.wf = true)
    (he : encode i = .command ⟨w, q⟩) (hi : ∀ st, i ≠ .txSettings st := by simp) : decodeCommand ⟨w, p⟩ = .ok i :=
  decodeCommand_eq_ok_iff.2 ((Command.spells_of_encode hwf he).any_port hi p)

/-! ## The wire decoder (R86 to R92) -/

/-- The six rows of R88. -/
theorem frameOfType_eq_some_iff {mt : Byte} {pl : List Byte} {i : Instr} :
    frameOfType mt pl = some i ↔ (mt = 0x5A ∧ i = .frameConnect pl) ∨ (mt = 0x41 ∧ i = .frameSettingsWrite pl)
      ∨ (mt = 0x42 ∧ i = .frameInfoRequest pl) ∨ (mt = 0x62 ∧ i = .frameCurSettings pl)
      ∨ (mt = 0x61 ∧ i = .frameStatusOk pl) ∨ (mt = 0x7A ∧ i = .frameStatusNotOk pl) := by
  constructor
  · intro h
    unfold frameOfType at h
    split_ifs at h with h1 h2 h3 h4 h5 h6 <;> cases h
    · exact .inl ⟨h1, rfl⟩
    · exact .inr (.inl ⟨h2, rfl⟩)
    · exact .inr (.inr (.inl ⟨h3, rfl⟩))
    · exact .inr (.inr (.inr (.inl ⟨h4, rfl⟩)))
    · exact .inr (.inr (.inr (.inr (.inl ⟨h5, rfl⟩))))
    · exact .inr (.inr (.inr (.inr (.inr ⟨h6, rfl⟩))))
  · rintro (⟨rfl, rfl⟩ | ⟨rfl, rfl⟩ | ⟨rfl, rfl⟩ | ⟨rfl, rfl⟩ | ⟨rfl, rfl⟩ | ⟨rfl, rfl⟩) <;> rfl

theorem frameOfType_eq_none_iff {mt : Byte} {pl : List Byte} : frameOfType mt pl = none ↔ UnlistedType mt := by
  unfold frameOfType UnlistedType
  split_ifs <;> simp_all

/-- A frame instruction encodes to the frame of a type that the table lists. -/
theorem frameOfType_of_encode {i : Instr} {f : List Byte} (h : encode i = .wire f) :
    ∃ mt pl, f = frameBytes mt pl ∧ frameOfType mt pl = some i ∧ i.wf = payloadFits pl := by
  cases i <;> cases h
  all_goals exact ⟨_, _, rfl, rfl, rfl⟩

/-- What the wire decoder accepts starts with the bytes of a frame. -/
theorem frameBytes_of_decodeFrame {bs rest : List Byte} {i : Instr} (h : decodeFrame bs = .ok (i, rest)) :
    ∃ mt pl, pl.length ≤ 26 ∧ frameOfType mt pl = some i ∧ bs = frameBytes mt pl ++ rest := by
  unfold decodeFrame at h
  split at h
  case h_2 => cases h
  case h_1 b0 mt b2 b3 len tail =>
    dsimp only at h
    split_ifs at h with hlen hhdr
    obtain ⟨rfl, rfl, rfl, hchk⟩ := hhdr
    split at h
    case h_2 => cases h
    case h_1 j hj =>
      cases h
      simp only [maxPayload, not_or, not_lt] at hlen
      obtain ⟨hmax, hroom⟩ := hlen
      obtain ⟨_, hchk⟩ := List.getElem?_eq_some_iff.1 hchk
      have hL : (tail.take len.toNat).length = len.toNat := List.length_take_of_le (by omega)
      have hlenByte : BitVec.ofNat 8 (tail.take len.toNat).length = len := by simp [hL]
      have htail : tail = tail.take len.toNat ++ tail[len.toNat] :: tail.drop (len.toNat + 1) := by simp
      refine ⟨mt, tail.take len.toNat, by omega, hj, ?_⟩
      rw [frameBytes_eq, hlenByte]
      rw [hchk] at htail
      simpa using htail

/-- The frame of a well-formed instruction decodes to it and leaves what follows. -/
theorem decodeFrame_of_encode {i : Instr} {f : List Byte} (hwf : i.wf = true) (he : encode i = .wire f) (rest : List Byte) :
    decodeFrame (f ++ rest) = .ok (i, rest) := by
  obtain ⟨mt, pl, rfl, hl, hi⟩ := encode_wire hwf he
  exact decodeFrame_frameBytes rest hl hi

/-- What encodes to a frame of at most 26 payload bytes is well-formed. -/
theorem wf_of_encode_frame {mt : Byte} {pl : List Byte} {i : Instr} (hl : pl.length ≤ 26)
    (he : encode i = .wire (frameBytes mt pl)) : i.wf = true := by
  obtain ⟨mt', pl', hf, _, hwf⟩ := frameOfType_of_encode he
  have hlen := congrArg List.length hf
  simp only [frameBytes_length] at hlen
  rw [hwf, payloadFits]
  exact decide_eq_true (by simp only [maxPayload]; omega)

theorem exists_encode_of_listed {mt : Byte} {pl : List Byte} (hl : pl.length ≤ 26) (hmt : ¬ UnlistedType mt) :
    ∃ i : Instr, i.wf = true ∧ encode i = .wire (frameBytes mt pl) := by
  rw [← frameOfType_eq_none_iff (pl := pl), ← ne_eq, Option.ne_none_iff_exists'] at hmt
  obtain ⟨i, hi⟩ := hmt
  obtain ⟨he, _⟩ := encode_frameOfType hi
  exact ⟨i, wf_of_encode_frame hl he, he⟩

/-! ## The opcode table (R72) -/

/-- A row covers a command word field by field. -/
theorem TableRow.covers_cmdWord_iff {r : TableRow} {op imm : Byte} :
    r.covers false (cmdWord op imm) = true ↔
      r.wire = false ∧ op &&& cmdOp r.mask = cmdOp r.pattern ∧ imm &&& cmdImm r.mask = cmdImm r.pattern := by
  rw [covers, Bool.and_eq_true, beq_iff_eq, beq_iff_eq, ← cmdWord_fields r.mask, ← cmdWord_fields r.pattern, cmdWord_and,
    cmdWord_inj]
  simp

/-- The decoder accepts every word that a command row covers, by evaluation over the rows and the immediates. -/
theorem decodeCommand_isOk_of_row : ∀ r ∈ tableRows, r.wire = false →
    ∀ imm : Byte, imm &&& cmdImm r.mask = cmdImm r.pattern → (decodeCommand ⟨cmdWord (cmdOp r.pattern) imm, 0⟩).isOk = true := by
  decide

theorem tableRows_opcodeMask : ∀ r ∈ tableRows, r.wire = false → cmdOp r.mask = BitVec.allOnes 8 := by decide

theorem tableRows_mnemonic_inj : ∀ r ∈ tableRows, ∀ q ∈ tableRows, r.mnemonic = q.mnemonic → r = q := by decide

/-- Every word that a row covers decodes, with a zero operand. -/
theorem exists_decode_of_covers {r : TableRow} {w : CmdWord} (hr : r ∈ tableRows) (h : r.covers false w = true) :
    ∃ i, decodeCommand ⟨w, 0⟩ = .ok i := by
  rw [← cmdWord_fields w, TableRow.covers_cmdWord_iff] at h
  obtain ⟨hwire, hop, himm⟩ := h
  rw [tableRows_opcodeMask r hr hwire, BitVec.and_allOnes] at hop
  have hok := decodeCommand_isOk_of_row r hr hwire _ himm
  rw [← hop, cmdWord_fields] at hok
  cases hd : decodeCommand ⟨w, 0⟩ with
  | ok i => exact ⟨i, rfl⟩
  | error e => rw [hd] at hok; cases hok

/-- A word that spells an instruction is covered by the instruction's row and no other. -/
theorem Command.Spells.rows {c : Command} {i : Instr} (h : c.Spells i) :
    (tableRows.filter fun r => r.covers false c.word).map TableRow.mnemonic = [i.mnemonic] := by
  obtain ⟨_, ⟨_, he⟩, _⟩ := h
  have hrow := Laws.RowMatch.every i
  rwa [Laws.RowMatch.Statement, he] at hrow

theorem Command.Spells.exists_row {c : Command} {i : Instr} (h : c.Spells i) :
    ∃ r ∈ tableRows, r.covers false c.word = true ∧ r.mnemonic = i.mnemonic := by
  have hmem : i.mnemonic ∈ (tableRows.filter fun r => r.covers false c.word).map TableRow.mnemonic := by simp [h.rows]
  simpa [and_assoc] using hmem

theorem Command.Spells.covers_iff {c : Command} {i : Instr} (h : c.Spells i) {r : TableRow} (hr : r ∈ tableRows) :
    r.covers false c.word = true ↔ r.mnemonic = i.mnemonic := by
  constructor
  · intro hc
    have hfilter : r ∈ tableRows.filter fun q => q.covers false c.word := List.mem_filter.2 ⟨hr, hc⟩
    have hmem := List.mem_map_of_mem (f := TableRow.mnemonic) hfilter
    rw [h.rows] at hmem
    exact List.mem_singleton.1 hmem
  · intro hm
    obtain ⟨q, hq, hcovers, hqm⟩ := h.exists_row
    rwa [tableRows_mnemonic_inj r hr q hq (hm.trans hqm.symm)]

end Sys2Proof

namespace Sys2Proof.Machine

open Sys2Proof.Claims

/-! ## The bits of a packed record (R77, R83, R84) -/

section Fields

variable {α : Type} {n bit width : Nat} {code : α → Nat} {f : Option α}

/-- A field that unpacks stands at its bits, when the codes number the values in index order (R80). -/
theorem fieldBits_of_unpackField {all : List α} (h : unpackField all n bit width = .ok f)
    (hcode : all.map code = List.range all.length) : FieldBits n bit width code f := by
  have code_eq : ∀ {k v}, all[k]? = some v → code v = k := by
    intro k v hk
    have hmap : (all.map code)[k]? = some (code v) := by simp [hk]
    rw [hcode, List.getElem?_eq_some_iff] at hmap
    obtain ⟨_, hk⟩ := hmap
    rw [← hk, List.getElem_range]
  unfold unpackField at h
  split_ifs at h with hvalid
  · cases h
    exact hvalid
  · split at h
    · next v hv =>
      cases h
      have hbit : bitsAt n bit 1 < 2 := Nat.mod_lt _ (by decide)
      exact ⟨show bitsAt n bit 1 = 1 by omega, (code_eq hv).symm⟩
    · cases h

/-- The two digits that a packed field puts into its number. -/
theorem packField_digits (f : Option α) {m : Nat} (hcode : ∀ v, code v < m) (hm : 0 < m) :
    ∃ a c, a < 2 ∧ c < m ∧ (∀ k, packValid f k = a * 2 ^ k) ∧ ∀ k, packValue f code k = c * 2 ^ k := by
  obtain ⟨a, c, hc, hvalid, hvalue, hac⟩ := packField_bounds f code m hcode hm
  have ha : a < 2 := by rcases hac with ⟨_, rfl, _⟩ | ⟨_, _, rfl, _⟩ <;> decide
  exact ⟨a, c, ha, hc, hvalid, hvalue⟩

/-- A field whose bits are the packed digits has the layout of R77. -/
theorem fieldBits_of_packed (hvalid : n / 2 ^ bit % 2 = packValid f 0)
    (hvalue : n / 2 ^ (bit + 1) % 2 ^ width = packValue f code 0) : FieldBits n bit width code f := by
  cases f with
  | none => exact hvalid
  | some v => exact ⟨hvalid, by simpa [packValue] using hvalue⟩

/-- An invalid packed field has zero value bits. -/
theorem zeroIfInvalid_of_packed (hvalue : n / 2 ^ (bit + 1) % 2 ^ width = packValue f code 0) :
    ZeroIfInvalid n bit width f := by
  rintro rfl
  exact hvalue

end Fields

/-- The value bits of a packed settings record, field by field. -/
theorem packSettings_valueBits (st : Settings) :
    (packSettings st).toNat / 2 ^ 1 % 2 ^ 1 = packValue st.power (indexOf allPower) 0
      ∧ (packSettings st).toNat / 2 ^ 3 % 2 ^ 3 = packValue st.mode (indexOf allMode) 0
      ∧ (packSettings st).toNat / 2 ^ 7 % 2 ^ 3 = packValue st.fan (indexOf allFan) 0
      ∧ (packSettings st).toNat / 2 ^ 11 % 2 ^ 3 = packValue st.vane (indexOf allVane) 0
      ∧ (packSettings st).toNat / 2 ^ 15 % 2 ^ 3 = packValue st.wideVane (indexOf allWideVane) 0
      ∧ (packSettings st).toNat / 2 ^ 19 % 2 ^ 8 = packValue st.temp tempCode 0 := by
  obtain ⟨a0, c0, _, _, v0, w0⟩ := packField_digits st.power indexOf_power_lt (by decide)
  obtain ⟨a1, c1, _, _, v1, w1⟩ := packField_digits st.mode indexOf_mode_lt (by decide)
  obtain ⟨a2, c2, _, _, v2, w2⟩ := packField_digits st.fan indexOf_fan_lt (by decide)
  obtain ⟨a3, c3, _, _, v3, w3⟩ := packField_digits st.vane indexOf_vane_lt (by decide)
  obtain ⟨a4, c4, _, _, v4, w4⟩ := packField_digits st.wideVane indexOf_wideVane_lt (by decide)
  obtain ⟨a5, c5, _, _, v5, w5⟩ := packField_digits st.temp tempCode_lt (by decide)
  simp only [packSettings, packSettingsNat, v0, w0, v1, w1, v2, w2, v3, w3, v4, w4, v5, w5, BitVec.toNat_ofNat]
  omega

/-- Every operand that unpacks does so in the layout of R77. -/
theorem layout_of_unpackSettings {p : Port32} {st : Settings} (h : unpackSettings p = .ok st) : Layout p.toNat st := by
  obtain ⟨hres, ⟨hpower, hmode, hfan, hvane, hwide⟩, htemp⟩ := unpackSettings_eq_ok_iff.1 h
  have hp := p.isLt
  refine ⟨fieldBits_of_unpackField hpower rfl, fieldBits_of_unpackField hmode rfl, fieldBits_of_unpackField hfan rfl,
    fieldBits_of_unpackField hvane rfl, fieldBits_of_unpackField hwide rfl, ?_, ?_⟩
  · rw [← htemp, unpackTemp]
    split_ifs with hvalid
    · exact hvalid
    · have hbit : bitsAt p.toNat 18 1 < 2 := Nat.mod_lt _ (by decide)
      exact ⟨show bitsAt p.toNat 18 1 = 1 by omega, rfl⟩
  · simp only [bitsAt] at hres
    omega

/-- A well-formed record is packed in the layout of R77, with zero value bits for an invalid field. -/
theorem packSettings_outputLayout {st : Settings} (h : st.wf = true) : OutputLayout (packSettings st).toNat st := by
  obtain ⟨hpower, hmode, hfan, hvane, hwide, htemp⟩ := packSettings_valueBits st
  exact ⟨layout_of_unpackSettings (unpack_pack h), zeroIfInvalid_of_packed hpower, zeroIfInvalid_of_packed hmode,
    zeroIfInvalid_of_packed hfan, zeroIfInvalid_of_packed hvane, zeroIfInvalid_of_packed hwide, zeroIfInvalid_of_packed htemp⟩

theorem tempCode_of_nonneg {d : Int} (h0 : 0 ≤ d) (h : d ≤ 255) : tempCode d = d.toNat := by
  simp only [tempCode, BitVec.toNat_ofInt]
  omega

/-- The bits of a packed room-temperature record (R84). -/
theorem packRoomTemp_bits (r : RoomTemp) :
    (packRoomTemp r).toNat / 2 ^ 0 % 2 = packValid r.room 0
      ∧ (packRoomTemp r).toNat / 2 ^ 1 % 2 ^ 8 = packValue r.room tempCode 0
      ∧ (packRoomTemp r).toNat / 2 ^ 9 % 2 = packValid r.raw 0
      ∧ (packRoomTemp r).toNat / 2 ^ 10 % 2 ^ 8 = packValue r.raw BitVec.toNat 0
      ∧ (packRoomTemp r).toNat / 2 ^ 18 = 0 := by
  obtain ⟨a0, c0, _, _, v0, w0⟩ := packField_digits r.room tempCode_lt (by decide)
  obtain ⟨a1, c1, _, _, v1, w1⟩ := packField_digits r.raw BitVec.isLt (by decide)
  simp only [packRoomTemp, v0, w0, v1, w1, BitVec.toNat_ofNat]
  omega

theorem decData_of_decTag {r : DecodeResult} (h4 : decTag r ≠ 4) (h5 : decTag r ≠ 5) : decData r = 0 := by
  cases r with
  | curSettings st => exact absurd rfl h4
  | curRoomTemp r => exact absurd rfl h5
  | noMessage | ignored | curUnrecognizedSubKind | statusOk | statusNotOk | unrecognizedKind => rfl

theorem decTag_le (r : DecodeResult) : (decTag r).toNat ≤ 9 := by
  cases r with
  | ignored k => cases k <;> decide
  | noMessage | curSettings | curRoomTemp | curUnrecognizedSubKind | statusOk | statusNotOk | unrecognizedKind => simp [decTag]

/-! ## RX_DECODE over the held frame (R169 to R177) -/

theorem exec_rxDecode_eq (s : State) : exec .rxDecode s = Responded (.decoded (s.rx.decoded codec)) s := rfl

theorem Rx.decoded_of_not_valid {c : Params} {r : Rx} (h : r.valid = false) : r.decoded c = .noMessage := by
  simp [Rx.decoded, h]

theorem Rx.decoded_of_unlisted {c : Params} {r : Rx} (h : r.valid = true) (hmt : UnlistedType (r.byte 1)) :
    r.decoded c = .unrecognizedKind := by
  obtain ⟨h1, h2, h3, h4, h5, h6⟩ := hmt
  simp only [Rx.decoded, h, if_true]
  rw [if_neg h1, if_neg h2, if_neg h3, if_neg h4, if_neg h5, if_neg h6]

/-- A valid frame of a listed type is answered as its row answers, when the row's payload reads as the held one. -/
theorem exec_rxDecode_of_frame {s : State} {pl : List Byte} {i : Instr} (hv : s.rx.valid = true)
    (hpl : ∀ p, pl[p]? = s.rx.pay p) (hi : frameOfType (s.rx.byte 1) pl = some i) : exec .rxDecode s = exec i s := by
  have hpay : payloadAt pl = s.rx.pay := funext hpl
  rw [exec_rxDecode_eq, Rx.decoded, if_pos hv]
  rcases frameOfType_eq_some_iff.1 hi with
    ⟨hmt, rfl⟩ | ⟨hmt, rfl⟩ | ⟨hmt, rfl⟩ | ⟨hmt, rfl⟩ | ⟨hmt, rfl⟩ | ⟨hmt, rfl⟩ <;> rw [hmt]
  · rfl
  · rfl
  · rfl
  · rw [← hpay]; rfl
  · rfl
  · rfl

/-- The three things the wire decoder can say of the held bytes, and what RX_DECODE answers to each. -/
theorem decodeFrame_held_cases {s : State} (hc : s.rx.cursor ≤ 32) :
    (∃ i rest, decodeFrame s.rx.held = .ok (i, rest) ∧ exec .rxDecode s = exec i s)
      ∨ (decodeFrame s.rx.held = .error .unrecognizedKind ∧ s.rx.decoded codec = .unrecognizedKind)
      ∨ ∃ e, decodeFrame s.rx.held = .error e ∧ e ≠ .unrecognizedKind ∧ s.rx.decoded codec = .noMessage := by
  obtain ⟨hincomplete, hinvalid, hvalid⟩ := decodeFrame_held s.rx hc
  cases hv : s.rx.valid with
  | true =>
    obtain ⟨pl, rest, _, hpl, hsome, hnone⟩ := hvalid hv
    cases hf : frameOfType (s.rx.byte 1) pl with
    | some i => exact .inl ⟨i, rest, hsome i hf, exec_rxDecode_of_frame hv hpl hf⟩
    | none => exact .inr (.inl ⟨hnone hf, Rx.decoded_of_unlisted hv (frameOfType_eq_none_iff.1 hf)⟩)
  | false =>
    have hd := Rx.decoded_of_not_valid (c := codec) hv
    cases hcm : s.rx.complete with
    | false => exact .inr (.inr ⟨_, hincomplete hcm, by simp, hd⟩)
    | true => exact .inr (.inr ⟨_, hinvalid hcm hv, by simp, hd⟩)

/-! ## Pushed bytes (R161, R181) -/

/-- RX_PUSH commands feed the receive side and leave the transmit side. -/
theorem runCommands_pushes (bs : List Byte) (s : State) :
    (runCommands (pushes bs) s).rx = s.rx.feed codec.fullValidPolicy bs ∧ (runCommands (pushes bs) s).tx = s.tx := by
  induction bs generalizing s with
  | nil => exact ⟨rfl, rfl⟩
  | cons b bs ih =>
    have hpush : decodeCommand ⟨0x01#8 ++ b, 0⟩ = .ok (.rxPush b) := decodeCommand_of_encode (i := .rxPush b) 0 rfl rfl
    rw [pushes, List.map_cons, runCommands_cons, issue_of_ok s hpush, ← pushes]
    exact ih _

/-- A frame pushed into an Empty assembler is held whole and valid. -/
theorem runCommands_pushes_frame (mt : Byte) {pl : List Byte} {s : State} (hl : pl.length ≤ 26) (h0 : s.rx.cursor = 0) :
    (runCommands (pushes (frame mt pl)) s).rx.cursor = 6 + pl.length
      ∧ (runCommands (pushes (frame mt pl)) s).rx.held = frame mt pl
      ∧ (runCommands (pushes (frame mt pl)) s).rx.valid = true := by
  obtain ⟨hrx, _⟩ := runCommands_pushes (frame mt pl) s
  obtain ⟨hcursor, hheld⟩ := Rx.feed_frame_held codec.fullValidPolicy mt pl h0 hl
  rw [hrx]
  exact ⟨hcursor, hheld, Rx.valid_of_held hl hcursor hheld⟩

/-! ## Refused commands and responses (R73 to R76, R246) -/

/-- A refused command has no step, and issued to the block it leaves both sides and gives no response. -/
theorem refused_of_error {s : State} {c : Command} {rest : List Command} {r : RefuseReason} (h : s.pending = c :: rest)
    (hd : decodeCommand c = .error r) :
    step s = .refused (.illegalCommand r) ∧ SameBlock s (issue c s) ∧ (issue c s).response = none := by
  rw [issue_of_error s hd]
  exact ⟨step_of_error h hd, ⟨rfl, rfl⟩, rfl⟩

theorem cmdOp_toNat (c : Command) : (cmdOp c.word).toNat = opNat c := by
  have := c.word.isLt
  simp only [cmdOp, opNat, BitVec.extractLsb'_toNat, Nat.shiftRight_eq_div_pow]
  omega

theorem cmdImm_toNat (c : Command) : (cmdImm c.word).toNat = immNat c := by
  simp [cmdImm, immNat]

theorem decodeCommand_of_reservedOp {c : Command} (h : ReservedOp c) : decodeCommand c = .error .reservedOpcode := by
  rw [ReservedOp, ← cmdOp_toNat] at h
  unfold decodeCommand
  split
  case h_14 => rfl
  all_goals omega

theorem decodeCommand_of_nonZeroImm {c : Command} (h : NonZeroImm c) : decodeCommand c = .error .nonZeroReservedBits := by
  rw [NonZeroImm, ← cmdOp_toNat, ← cmdImm_toNat] at h
  rcases h with ⟨hop, himm⟩ | ⟨hop, himm⟩ | ⟨hop, himm⟩
  · have hzero : ∀ i, mustBeZero (cmdImm c.word) 0 i = .error .nonZeroReservedBits :=
      fun i => mustBeZero_of_ne (by simpa using himm)
    rcases hop with hop | hop | hop | hop | hop | hop <;> simp [decodeCommand, decodeTxSettings, hop, hzero, himm]
  · simp only [decodeCommand, hop, mustBeZero_of_ne (lo := 1) himm]
  · simp only [decodeCommand, hop, mustBeZero_of_ne (lo := 5) himm]

theorem kindOfResponse_responseOf (i : Instr) (r : Rx) (t : Tx codec.txCap) :
    kindOfResponse (responseOf i r t) = responseKind i := by
  cases i <;> rfl

end Sys2Proof.Machine

namespace Sys2Proof.Claims

open Sys2Proof.Machine

/-- Settles O11: a command by its fields and its port, a frame by its header, length and checksum. -/
theorem decodeOfEncode : Obligations.DecodeOfEncode := by
  intro i hwf
  cases he : encode i with
  | command c => simp [decode, decodeCommand_eq_ok_iff.2 (Command.spells_of_encode hwf he)]
  | wire f =>
    have hd := decodeFrame_of_encode hwf he []
    rw [List.append_nil] at hd
    simp [decode, hd]

/-- Settles O13: what is accepted is a frame and what follows it, and a frame is accepted. -/
theorem wireDecoderIsExact : Obligations.WireDecoderIsExact := by
  intro bs i rest
  constructor
  · intro h
    obtain ⟨mt, pl, hl, hi, rfl⟩ := frameBytes_of_decodeFrame h
    obtain ⟨he, _⟩ := encode_frameOfType hi
    exact ⟨wf_of_encode_frame hl he, _, he, rfl⟩
  · rintro ⟨hwf, f, he, rfl⟩
    exact decodeFrame_of_encode hwf he rest

/-- Settles O12: the command spells the instruction, and a command without an operand does so at every port. -/
theorem encodeOfDecodedCommand : Obligations.EncodeOfDecodedCommand := by
  intro c i h
  have hs := decodeCommand_eq_ok_iff.1 h
  have ⟨hwf, ⟨_, he⟩, _⟩ := hs
  exact ⟨hwf, ⟨_, he, rfl⟩, fun hi q => decodeCommand_eq_ok_iff.2 (hs.any_port hi q)⟩

/-- Settles O9: each word is the word of its instruction's encoding. -/
theorem legalWordsDecode : Obligations.LegalWordsDecode := by
  intro b idx p
  have hidx : idx.setWidth 8 = 0#3 ++ idx := BitVec.setWidth_eq_append (by decide)
  exact ⟨decodeCommand_of_encode p rfl rfl, decodeCommand_of_encode p rfl rfl, decodeCommand_of_encode p rfl rfl,
    decodeCommand_of_encode p rfl rfl, decodeCommand_of_encode p rfl rfl, decodeCommand_of_encode p rfl rfl,
    decodeCommand_of_encode p rfl rfl, decodeCommand_of_encode p rfl rfl,
    decodeCommand_of_encode p rfl (by rw [encode, hidx]; rfl),
    decodeCommand_of_encode p (toInt_fits b) (by rw [encode, BitVec.ofInt_toInt]; rfl),
    decodeCommand_of_encode p rfl rfl,
    decodeCommand_of_encode p (toInt_fits b) (by rw [encode, BitVec.ofInt_toInt]; rfl),
    decodeCommand_of_encode p rfl rfl,
    fun st hwf => decodeCommand_eq_ok_iff.2 (Command.spells_of_encode hwf rfl)⟩

/-- Settles O14: the words of a command row decode, and the word of an instruction is in its own row alone. -/
theorem decoderFollowsTheTable : Obligations.DecoderFollowsTheTable := by
  refine ⟨fun w => ⟨?_, ?_⟩, fun c i h r hr => (decodeCommand_eq_ok_iff.1 h).covers_iff hr⟩
  · rintro ⟨i, h⟩
    obtain ⟨r, hr, hc, _⟩ := (decodeCommand_eq_ok_iff.1 h).exists_row
    exact ⟨r, hr, hc⟩
  · rintro ⟨r, hr, hc⟩
    exact exists_decode_of_covers hr hc

/-- Settles O15: on input field by field, on output by unpacking what was packed. -/
theorem settingsPortLayout : Obligations.SettingsPortLayout :=
  ⟨fun _ _ h => ⟨layout_of_unpackSettings h, wf_of_unpackSettings h⟩, fun _ h => packSettings_outputLayout h⟩

/-- Settles O16: both records put each field's valid bit and code at the field's own bits. -/
theorem decodeResultPorts : Obligations.DecodeResultPorts := by
  refine ⟨rfl, rfl, rfl, rfl, fun _ => rfl, fun _ => rfl, rfl, rfl, rfl, rfl, decTag_le, fun r => decData_of_decTag,
    fun st => packSettings_outputLayout, fun r hroom => ?_⟩
  obtain ⟨roomValid, roomValue, rawValid, rawValue, high⟩ := packRoomTemp_bits r
  refine ⟨?_, zeroIfInvalid_of_packed roomValue, fieldBits_of_packed rawValid rawValue, zeroIfInvalid_of_packed rawValue, high⟩
  have hcode : packValue r.room Int.toNat 0 = packValue r.room tempCode 0 := by
    cases hd : r.room with
    | none => rfl
    | some d => simp only [packValue, tempCode_of_nonneg (hroom d hd).1 (hroom d hd).2]
  exact fieldBits_of_packed roomValid (roomValue.trans hcode.symm)

/-- Settles O27, by the three things the wire decoder can say of the held bytes. -/
theorem rxDecodeRunsTheHeldFrame : Obligations.RxDecodeRunsTheHeldFrame := by
  intro s hc
  rcases decodeFrame_held_cases hc with ⟨i, rest, hd, he⟩ | ⟨hd, he⟩ | ⟨e, hd, hne, he⟩ <;> simp only [hd]
  · refine ⟨fun j _ h => ?_, by simp, by simp⟩
    cases h
    exact he
  · refine ⟨by simp, fun _ => by rw [exec_rxDecode_eq, he], fun r h hr => ?_⟩
    cases h
    exact absurd rfl hr
  · exact ⟨by simp, fun h => absurd (Except.error.inj h) hne, fun _ _ _ => by rw [exec_rxDecode_eq, he]⟩

/-- Settles O32: the held bytes are the frame, so RX_DECODE is the wire decoder on the frame. -/
theorem pushedFrameIsDecoded : Obligations.PushedFrameIsDecoded := by
  intro mt pl s hl h0 t
  obtain ⟨hcursor, hheld, hvalid⟩ := runCommands_pushes_frame mt hl h0
  obtain ⟨_, htx⟩ := runCommands_pushes (frame mt pl) s
  obtain ⟨hrow, hunlisted, _⟩ := rxDecodeRunsTheHeldFrame t (show t.rx.cursor ≤ 32 by rw [hcursor]; omega)
  refine ⟨hcursor, hheld, Rx.complete_of_valid hvalid, hvalid, htx, fun i he => ?_, exists_encode_of_listed hl, fun hmt => ?_⟩
  · have hd := decodeFrame_of_encode (wf_of_encode_frame hl he) he []
    rw [List.append_nil, ← hheld] at hd
    exact hrow i [] hd
  · have hd := decodeFrame_frameBytes_eq mt [] hl
    rw [List.append_nil, frameOfType_eq_none_iff.2 hmt] at hd
    exact hunlisted (by rw [hheld]; exact hd)

/-- Settles O3: no row of the opcode map has a reserved opcode. -/
theorem reservedOpcodeRefused : Obligations.ReservedOpcodeRefused :=
  fun _ _ _ h hop => refused_of_error h (decodeCommand_of_reservedOp hop)

/-- Settles O4, by the three widths of the must-be-zero bits. -/
theorem nonZeroImmediateRefused : Obligations.NonZeroImmediateRefused :=
  fun _ _ _ h himm => refused_of_error h (decodeCommand_of_nonZeroImm himm)

/-- Settles O8: every meaning ends in a next state, and there is no fault to end in. -/
theorem everyInstructionRespondsInKind : Obligations.EveryInstructionRespondsInKind :=
  ⟨fun i s => ⟨_, _, exec_spec i s, rfl, kindOfResponse_responseOf i s.rx s.tx, rfl, rfl⟩,
    fun _ _ s h => by rw [issue_of_error s h, markRefusal_response], fun _ r => nomatch r⟩

/-- Settles O17, port by port. -/
theorem responsePorts : Obligations.ResponsePorts := ⟨rfl, rfl, fun _ => rfl, fun _ => rfl, fun _ => rfl⟩

/-- Settles O56, value by value. -/
theorem wireCodeTables : Obligations.WireCodeTables := by
  refine ⟨?_, ?_, ?_, ?_, ?_⟩ <;> intro v <;> cases v <;> rfl

end Sys2Proof.Claims

/-! PROOFS. The frame model (spec/40_frame_model.md): the checksum over changed bytes, the temperature conversions and their
domains, the codes of the enums, and settings equality. -/

namespace Sys2Proof.Machine

open Sys2Proof.Claims

/-! ## A changed byte of a valid frame (R122) -/

/-- One byte rewritten among the first `n` moves their sum by the difference. -/
theorem byteSum_firstBytes_set {size : Nat} (buf : Buffer size) (b : Byte) {j n : Nat} (hj : j < n) (hn : n ≤ size) :
    byteSum (firstBytes (buf.setIfInBounds j b) n) + (byteAt buf j).toNat = byteSum (firstBytes buf n) + b.toNat := by
  induction n with
  | zero => omega
  | succ n ih =>
    rw [firstBytes_succ _ hn, firstBytes_succ _ hn, byteAt_set _ _ _ hn]
    simp only [byteSum_append, byteSum_cons, byteSum_nil]
    by_cases e : n = j
    · subst e
      rw [firstBytes_set_of_le _ _ (Nat.le_refl n) (by omega), if_pos rfl]
      omega
    · have := ih (by omega) (by omega)
      rw [if_neg e]
      omega

/-- A valid frame is invalid after a change of any one of its bytes but the length byte: were it valid, both byte sums would be
0xFC modulo 256, and the two bytes would be equal. -/
theorem Rx.valid_eq_false_of_set {r q : Rx} {b : Byte} {j : Nat} (hbuf : q.buf = r.buf.setIfInBounds j b)
    (hcursor : q.cursor = r.cursor) (hc : r.cursor ≤ 32) (hv : r.valid = true) (h4 : j ≠ 4) (hj : j < 6 + r.payloadLen)
    (hb : b ≠ r.byte j) : q.valid = false := by
  rw [← Bool.not_eq_true]
  intro hq
  have hL : q.payloadLen = r.payloadLen := by
    simp only [Rx.payloadLen, Rx.byte, hbuf, byteAt_set _ _ _ (show 4 < rxCap by decide), if_neg (Ne.symm h4)]
  obtain ⟨⟨_, hlen⟩, ⟨h0, h2, h3⟩, _⟩ := (Rx.valid_iff r).1 hv
  obtain ⟨_, ⟨q0, q2, q3⟩, _⟩ := (Rx.valid_iff q).1 hq
  have hsum := (Rx.valid_iff_byteSum hc (Rx.complete_of_valid hv) h0 h2 h3).1 hv
  have hsum' := (Rx.valid_iff_byteSum (by omega) (Rx.complete_of_valid hq) q0 q2 q3).1 hq
  have hdiff := byteSum_firstBytes_set r.buf b hj (Nat.le_trans hlen hc)
  rw [hL, hbuf] at hsum'
  have hold : (byteAt r.buf j).toNat < 256 := (byteAt r.buf j).isLt
  have hnew : b.toNat < 256 := b.isLt
  exact hb (BitVec.eq_of_toNat_eq (show b.toNat = (byteAt r.buf j).toNat by omega))

theorem xor_two_pow_ne (b : Byte) {k : Nat} (hk : k < 8) : b ^^^ BitVec.ofNat 8 (2 ^ k) ≠ b := by
  intro h
  have hbit : (b ^^^ BitVec.ofNat 8 (2 ^ k)).getLsbD k = b.getLsbD k := by rw [h]
  rw [BitVec.getLsbD_xor, BitVec.getLsbD_ofNat, Nat.testBit_two_pow_self] at hbit
  simp [hk] at hbit

/-! ## The temperature conversions inside and outside their domains (R123 to R127) -/

theorem tempToByte_of_mem {d : Int} (h : 16 ≤ d) (h' : d ≤ 31) : tempToByte d = BitVec.ofInt 8 (31 - d) := if_pos ⟨h, h'⟩

theorem tempToByte_of_not_mem {d : Int} (h : d < 16 ∨ 31 < d) : tempToByte d = 0x00 := if_neg (by omega)

theorem roomTempToByte_of_mem {d : Int} (h : 10 ≤ d) (h' : d ≤ 41) : roomTempToByte d = BitVec.ofInt 8 (d - 10) :=
  if_pos ⟨h, h'⟩

theorem roomTempToByte_of_not_mem {d : Int} (h : d < 10 ∨ 41 < d) : roomTempToByte d = 0x00 := if_neg (by omega)

theorem byteToTemp_of_le {b : Byte} (h : b.toNat ≤ 0x0F) : byteToTemp b = 31 - (b.toNat : Int) := if_pos h

theorem byteToRoomTemp_of_le {b : Byte} (h : b.toNat ≤ 0x1F) : byteToRoomTemp b = (b.toNat : Int) + 10 := if_pos h

theorem tempToByte_toNat {d : Int} (h : 16 ≤ d) (h' : d ≤ 31) : ((tempToByte d).toNat : Int) = 31 - d := by
  rw [tempToByte_of_mem h h', BitVec.toNat_ofInt]
  omega

theorem roomTempToByte_toNat {d : Int} (h : 10 ≤ d) (h' : d ≤ 41) : ((roomTempToByte d).toNat : Int) = d - 10 := by
  rw [roomTempToByte_of_mem h h', BitVec.toNat_ofInt]
  omega

theorem byteToTemp_tempToByte {d : Int} (h : 16 ≤ d) (h' : d ≤ 31) : byteToTemp (tempToByte d) = d := by
  have hb := tempToByte_toNat h h'
  rw [byteToTemp_of_le (by omega)]
  omega

theorem byteToRoomTemp_roomTempToByte {d : Int} (h : 10 ≤ d) (h' : d ≤ 41) : byteToRoomTemp (roomTempToByte d) = d := by
  have hb := roomTempToByte_toNat h h'
  rw [byteToRoomTemp_of_le (by omega)]
  omega

theorem tempToByte_byteToTemp {b : Byte} (h : b.toNat ≤ 0x0F) : tempToByte (byteToTemp b) = b := by
  apply BitVec.eq_of_toNat_eq
  have hb := tempToByte_toNat (d := 31 - (b.toNat : Int)) (by omega) (by omega)
  rw [byteToTemp_of_le h]
  omega

theorem roomTempToByte_byteToRoomTemp {b : Byte} (h : b.toNat ≤ 0x1F) : roomTempToByte (byteToRoomTemp b) = b := by
  apply BitVec.eq_of_toNat_eq
  have hb := roomTempToByte_toNat (d := (b.toNat : Int) + 10) (by omega) (by omega)
  rw [byteToRoomTemp_of_le h]
  omega

/-! ## What the decoder can put into a record (R129, R173, R174, R244) -/

/-- A decoded target temperature comes from a byte of the domain of R124. -/
theorem decodeSettings_temp_range {c : Params} {q : Nat → Option Byte} {d : Int} (h : (decodeSettings c q).temp = some d) :
    16 ≤ d ∧ d ≤ 31 := by
  obtain ⟨b, _, hb⟩ := Option.bind_eq_some_iff.1 h
  split_ifs at hb with hdom
  cases hb
  have hle : b.toNat ≤ 0x0F := of_decide_eq_true hdom
  rw [byteToTemp_of_le hle]
  omega

/-- A decoded room temperature comes from a byte of the domain of R126. -/
theorem decodeRoomTemp_room_range {c : Params} {q : Nat → Option Byte} {d : Int} (h : (decodeRoomTemp c q).room = some d) :
    10 ≤ d ∧ d ≤ 41 := by
  obtain ⟨b, _, hb⟩ := Option.bind_eq_some_iff.1 h
  split_ifs at hb with hdom
  cases hb
  have hle : b.toNat ≤ 0x1F := of_decide_eq_true hdom
  rw [byteToRoomTemp_of_le hle]
  omega

theorem decodeRoomTemp_raw_ne_zero {c : Params} {q : Nat → Option Byte} {v : Byte} (h : (decodeRoomTemp c q).raw = some v) :
    v ≠ 0x00 := by
  obtain ⟨b, _, hb⟩ := Option.bind_eq_some_iff.1 h
  split_ifs at hb with hne
  cases hb
  exact hne

/-- The three things a current-settings-response can be answered with (R172, R175). -/
theorem decodeCurrent_cases (c : Params) (q : Nat → Option Byte) :
    decodeCurrent c q = .curSettings (decodeSettings c q) ∨ decodeCurrent c q = .curRoomTemp (decodeRoomTemp c q)
      ∨ decodeCurrent c q = .curUnrecognizedSubKind := by
  unfold decodeCurrent
  split
  · exact .inr (.inr rfl)
  · split_ifs
    · exact .inl rfl
    · exact .inr (.inl rfl)
    · exact .inr (.inr rfl)

/-- RX_DECODE answers as a current-settings-response, or without a record. -/
theorem Rx.decoded_cases (c : Params) (r : Rx) :
    r.decoded c = decodeCurrent c r.pay
      ∨ (∀ st, r.decoded c ≠ .curSettings st) ∧ ∀ t, r.decoded c ≠ .curRoomTemp t := by
  unfold Rx.decoded
  dsimp only
  split_ifs
  pick_goal 4
  · exact .inl rfl
  all_goals exact .inr ⟨by simp, by simp⟩

/-- A settings record is decoded from the payload of the held frame. -/
theorem Rx.eq_decodeSettings_of_decoded {c : Params} {r : Rx} {st : Settings} (h : r.decoded c = .curSettings st) :
    st = decodeSettings c r.pay := by
  rcases r.decoded_cases c with hd | ⟨hne, _⟩
  · rw [hd] at h
    rcases decodeCurrent_cases c r.pay with hq | hq | hq <;> rw [hq] at h <;> cases h
    rfl
  · exact absurd h (hne st)

/-- A room-temperature record is decoded from the payload of the held frame. -/
theorem Rx.eq_decodeRoomTemp_of_decoded {c : Params} {r : Rx} {t : RoomTemp} (h : r.decoded c = .curRoomTemp t) :
    t = decodeRoomTemp c r.pay := by
  rcases r.decoded_cases c with hd | ⟨_, hne⟩
  · rw [hd] at h
    rcases decodeCurrent_cases c r.pay with hq | hq | hq <;> rw [hq] at h <;> cases h
    rfl
  · exact absurd h (hne t)

theorem wf_of_temp_range {st : Settings} (h : ∀ d, st.temp = some d → 16 ≤ d ∧ d ≤ 31) : st.wf = true := by
  unfold Settings.wf
  split
  · rfl
  · next d hd =>
    have := h d hd
    simp only [tempFits, Bool.and_eq_true, decide_eq_true_eq]
    omega

/-! ## The codes of the enums (R129, R141 to R143) -/

theorem mem_allPower (v : Power) : v ∈ allPower := List.mem_of_getElem? (allPower_indexOf v)
theorem mem_allMode (v : Mode) : v ∈ allMode := List.mem_of_getElem? (allMode_indexOf v)
theorem mem_allFan (v : Fan) : v ∈ allFan := List.mem_of_getElem? (allFan_indexOf v)
theorem mem_allVane (v : Vane) : v ∈ allVane := List.mem_of_getElem? (allVane_indexOf v)
theorem mem_allWideVane (v : WideVane) : v ∈ allWideVane := List.mem_of_getElem? (allWideVane_indexOf v)

section Codes

variable {α : Type} {all : List α} {t : Codes α}

/-- Searching all values for a code finds the value that has it, when no two values share a code. -/
theorem find?_code_eq_some_iff {β : Type} [BEq β] [LawfulBEq β] {f : α → β} {b : β} {v : α} (hall : ∀ u, u ∈ all)
    (hf : Function.Injective f) : (all.find? fun u => f u == b) = some v ↔ f v = b := by
  constructor
  · intro h
    simpa using List.find?_some h
  · rintro rfl
    cases h : all.find? fun u => f u == f v with
    | none => exact absurd (beq_self_eq_true (f v)) (List.find?_eq_none.1 h v (hall v))
    | some u =>
      have hu : f u = f v := by simpa using List.find?_some h
      rw [hf hu]

theorem unwire_eq_some_iff (hall : ∀ u, u ∈ all) (ht : Function.Injective t.wire) (b : Byte) (v : α) :
    unwire all t b = some v ↔ t.wire v = b := find?_code_eq_some_iff hall ht

theorem parseString_name (hall : ∀ u, u ∈ all) (hnames : (all.map t.name).Nodup) (v : α) :
    parseString all t (t.name v) = (v, true) := by
  have hinj : Function.Injective t.name := fun u w => List.inj_on_of_nodup_map hnames (hall u) (hall w)
  rw [parseString, (find?_code_eq_some_iff hall hinj).2 rfl]

theorem parseString_of_not_name {x : String} (h : ∀ v, t.name v ≠ x) : parseString all t x = (t.dflt, false) := by
  have hnone : (all.find? fun v => t.name v == x) = none := List.find?_eq_none.2 fun v _ => by simp [h v]
  rw [parseString, hnone]

end Codes

/-! ## Settings equality (R131, R132) -/

section FieldEq

variable {α : Type} [DecidableEq α]

theorem fieldEq_iff (a b : Option α) : fieldEq a b = true ↔ ∀ x y, a = some x → b = some y → x = y := by
  cases a <;> cases b <;> simp [fieldEq]

@[simp] theorem fieldEq_self (a : Option α) : fieldEq a a = true := by
  cases a <;> simp [fieldEq]

theorem fieldEq_comm (a b : Option α) : fieldEq a b = fieldEq b a := by
  cases a <;> cases b <;> simp [fieldEq, eq_comm]

end FieldEq

theorem settingsEq_iff (a b : Settings) :
    settingsEq a b = true ↔ fieldEq a.power b.power = true ∧ fieldEq a.mode b.mode = true ∧ fieldEq a.fan b.fan = true
      ∧ fieldEq a.vane b.vane = true ∧ fieldEq a.wideVane b.wideVane = true ∧ fieldEq a.temp b.temp = true := by
  simp only [settingsEq, Bool.and_eq_true, and_assoc]

end Sys2Proof.Machine

namespace Sys2Proof.Claims

open Sys2Proof.Machine

/-- Settles O43: a flipped bit changes its byte, and no byte but the length can change alone. -/
theorem singleBitFlipIsCaught : Obligations.SingleBitFlipIsCaught := by
  intro s j k hc hv hk hj
  have hL : s.rx.payloadLen = (s.rx.byte 4).toNat := rfl
  exact Rx.valid_eq_false_of_set rfl rfl hc hv (by omega) (by omega) (xor_two_pow_ne _ hk)

/-- Settles O34: the record answered is the one decoded from the payload, and each of its fields passed a domain guard. -/
theorem decodedValuesAreReal : Obligations.DecodedValuesAreReal := by
  intro s t h
  rw [exec_rxDecode_eq] at h
  cases h
  refine ⟨fun st hst => ?_, fun r hr => ?_⟩
  · have hrec : st = decodeSettings codec s.rx.pay := Rx.eq_decodeSettings_of_decoded (by simpa using hst)
    subst hrec
    exact ⟨wf_of_temp_range fun _ => decodeSettings_temp_range, fun _ => decodeSettings_temp_range⟩
  · have hrec : r = decodeRoomTemp codec s.rx.pay := Rx.eq_decodeRoomTemp_of_decoded (by simpa using hr)
    subst hrec
    exact ⟨fun _ => decodeRoomTemp_room_range, fun _ => decodeRoomTemp_raw_ne_zero⟩

/-- Settles O57, enum by enum: the index order lists every value. -/
theorem unwireInvertsWire : Obligations.UnwireInvertsWire :=
  ⟨fun _ => unwire_eq_some_iff mem_allPower, fun _ => unwire_eq_some_iff mem_allMode, fun _ => unwire_eq_some_iff mem_allFan,
    fun _ => unwire_eq_some_iff mem_allVane, fun _ => unwire_eq_some_iff mem_allWideVane⟩

/-- Settles O41: the sum is reduced below 256 before it is subtracted, so the natural and the integer difference agree. -/
theorem checksumFormula : Obligations.ChecksumFormula := by
  intro bs
  have h := chk_toNat bs
  rw [byteSum] at h
  omega

/-- Settles O51: the immediate is the encoding's signed byte, and the two sides of the domain answer for themselves. -/
theorem cvT2bResult : Obligations.CvT2bResult := by
  refine ⟨fun imm p => ?_, fun d s => ?_⟩
  · exact decodeCommand_of_encode p (toInt_fits imm) (by rw [encode, BitVec.ofInt_toInt]; rfl)
  · have he : exec (.cvT2b d) s = Responded (.byte (tempToByte d)) s := exec_of_readsOnly s rfl
    exact ⟨fun h h' => by rw [he, tempToByte_of_mem h h'], fun h => by rw [he, tempToByte_of_not_mem h]⟩

/-- Settles O53, as for CV_T2B with the domain of R125. -/
theorem cvR2bResult : Obligations.CvR2bResult := by
  refine ⟨fun imm p => ?_, fun d s => ?_⟩
  · exact decodeCommand_of_encode p (toInt_fits imm) (by rw [encode, BitVec.ofInt_toInt]; rfl)
  · have he : exec (.cvR2b d) s = Responded (.byte (roomTempToByte d)) s := exec_of_readsOnly s rfl
    exact ⟨fun h h' => by rw [he, roomTempToByte_of_mem h h'], fun h => by rw [he, roomTempToByte_of_not_mem h]⟩

/-- Settles O55: inside the domains the two directions cancel; 40 and 9 lie outside. -/
theorem temperatureRoundTrips : Obligations.TemperatureRoundTrips :=
  ⟨fun _ => byteToTemp_tempToByte, fun _ => tempToByte_of_not_mem, fun _ => byteToRoomTemp_roomTempToByte,
    fun _ => tempToByte_byteToTemp, fun _ => roomTempToByte_byteToRoomTemp, by decide, by decide⟩

/-- Settles O58, field by field; the three records of R132 are evaluated. -/
theorem settingsEquality : Obligations.SettingsEquality := by
  refine ⟨fun a b => ?_, fun a => ?_, fun a b => ?_, by decide, by decide, by decide⟩
  · simp only [settingsEq_iff, fieldEq_iff]
  · simp only [settingsEq_iff, fieldEq_self, and_self]
  · simp only [settingsEq, fieldEq_comm]

/-- Settles O59: the canonical strings of an enum are distinct, so the search of R142 finds the value or nothing. -/
theorem stringConversions : Obligations.StringConversions :=
  ⟨parseString_name mem_allPower (by decide), parseString_name mem_allMode (by decide),
    parseString_name mem_allFan (by decide), parseString_name mem_allVane (by decide),
    parseString_name mem_allWideVane (by decide), fun _ => parseString_of_not_name, fun _ => parseString_of_not_name,
    fun _ => parseString_of_not_name, fun _ => parseString_of_not_name, fun _ => parseString_of_not_name,
    fun _ _ => ⟨rfl, rfl⟩⟩

/-- Settles O60, by evaluation over the indices of each field. -/
theorem canonicalStrings : Obligations.CanonicalStrings := ⟨rfl, rfl, rfl, rfl, rfl⟩

end Sys2Proof.Claims

/-! PROOFS. The assembler (spec/41_assembler.md): the words of the RX commands, what RX_DECODE answers by the message type and
the sub-tag, the fields of the two records, and frames that are pushed after noise or read back from the transmit buffer. -/

namespace Sys2Proof.Machine

open Sys2Proof.Claims

/-! ## The words without an immediate (R72, R74) -/

theorem opNat_append (op imm : Byte) (p : Port32) : opNat ⟨op ++ imm, p⟩ = op.toNat :=
  (cmdOp_toNat ⟨cmdWord op imm, p⟩).symm.trans (congrArg BitVec.toNat (cmdOp_cmdWord op imm))

theorem immNat_append (op imm : Byte) (p : Port32) : immNat ⟨op ++ imm, p⟩ = imm.toNat :=
  (cmdImm_toNat ⟨cmdWord op imm, p⟩).symm.trans (congrArg BitVec.toNat (cmdImm_cmdWord op imm))

/-- An opcode whose immediate must be zero spells its instruction with immediate 0 and is refused with any other. -/
theorem decodeCommand_of_zeroImm {op : Byte} {i : Instr} (imm : Byte) (p : Port32)
    (hop : op.toNat = 0x02 ∨ op.toNat = 0x03 ∨ op.toNat = 0x04 ∨ op.toNat = 0x05 ∨ op.toNat = 0x10) (hwf : i.wf = true)
    (he : encode i = cmdPacket op 0x00) (hi : ∀ st, i ≠ .txSettings st := by simp) :
    decodeCommand ⟨op ++ imm, p⟩ = if imm = 0 then .ok i else .error .nonZeroReservedBits := by
  split_ifs with h0
  · subst h0
    exact decodeCommand_of_encode p hwf he hi
  · have himm : imm.toNat ≠ 0 := fun h => h0 (BitVec.eq_of_toNat_eq h)
    refine decodeCommand_of_nonZeroImm (.inl ⟨?_, by rwa [immNat_append]⟩)
    rw [opNat_append]
    omega

/-! ## The receive side: a full buffer, and the validity of R27 -/

theorem Rx.push_of_not_full {p : FullValidPolicy} {b : Byte} {r : Rx} (hc : r.cursor ≠ 32) : r.push p b = r.take b := if_neg hc

/-- The overflow reset of R163, with the buffers it leaves written out. -/
theorem Rx.push_full_eq {p : FullValidPolicy} {b : Byte} {r : Rx} (hc : r.cursor = 32) (hv : ¬ (r.valid = true ∧ p = .drop)) :
    r.push p b = if b = 0xFC then ⟨(Vector.replicate 32 0x00).setIfInBounds 0 0xFC, 1⟩ else ⟨Vector.replicate 32 0x00, 0⟩ := by
  rw [Rx.push_full_of_reset hc hv]
  split_ifs with hb
  · rw [hb]; rfl
  · rfl

theorem exec_rxPush_eq (b : Byte) (s : State) :
    exec (.rxPush b) s = Responded .ack { s with rx := s.rx.push Config.fullValidPolicy b } := rfl

theorem validFrame_iff {s : State} : ValidFrame s ↔ s.rx.valid = true := by
  rw [Rx.valid_iff]
  simp only [ValidFrame, Rx.payloadLen, and_assoc]

/-! ## RX_DECODE by the message type and the sub-tag (R169 to R177) -/

theorem decodeCurrent_of_settings {q : Nat → Option Byte} (h : q 0 = some 0x02) :
    decodeCurrent codec q = .curSettings (decodeSettings codec q) := by
  simp [decodeCurrent, codec, h]

theorem decodeCurrent_of_roomTemp {q : Nat → Option Byte} (h : q 0 = some 0x03) :
    decodeCurrent codec q = .curRoomTemp (decodeRoomTemp codec q) := by
  simp [decodeCurrent, codec, h]

theorem decodeCurrent_of_other {q : Nat → Option Byte} (h2 : q 0 ≠ some 0x02) (h3 : q 0 ≠ some 0x03) :
    decodeCurrent codec q = .curUnrecognizedSubKind := by
  unfold decodeCurrent
  split
  · rfl
  · next tag htag =>
    have hsettings : tag ≠ codec.infoKindSettings := fun h => h2 (htag.trans (congrArg some h))
    have hroomTemp : tag ≠ codec.infoKindRoomTemp := fun h => h3 (htag.trans (congrArg some h))
    rw [if_neg hsettings, if_neg hroomTemp]

/-- The payload of the held frame as a list. -/
theorem Rx.exists_payload (r : Rx) : ∃ pl : List Byte, ∀ p, pl[p]? = r.pay p := by
  refine ⟨(List.range r.payloadLen).map fun p => r.byte (5 + p), fun p => ?_⟩
  rw [Rx.pay]
  split_ifs with hp <;> simp [hp]

/-- On a valid frame RX_DECODE is the row of the frame's type, over a payload that reads as the held one. -/
theorem exec_rxDecode_of_validFrame {s : State} (h : ValidFrame s) :
    ∃ pl : List Byte, payloadAt pl = pay s
      ∧ ∀ i {mt}, s.rx.byte 1 = mt → frameOfType mt pl = some i → exec .rxDecode s = exec i s := by
  obtain ⟨pl, hpl⟩ := s.rx.exists_payload
  refine ⟨pl, funext hpl, ?_⟩
  rintro i _ rfl hi
  exact exec_rxDecode_of_frame (validFrame_iff.1 h) hpl hi

/-- On a valid current-settings-response RX_DECODE dispatches on the held payload's sub-tag. -/
theorem exec_rxDecode_of_curSettings {s : State} (h : ValidFrame s) (hmt : s.rx.byte 1 = 0x62) :
    exec .rxDecode s = Responded (.decoded (decodeCurrent codec (pay s))) s := by
  obtain ⟨pl, hpl, hrow⟩ := exec_rxDecode_of_validFrame h
  rw [hrow (.frameCurSettings pl) hmt rfl, ← hpl]
  rfl

/-! ## The fields of a decoded record (R129, R173, R174) -/

/-- An enum field is read from its byte when the codes of the enum are distinct. -/
theorem fieldRead_unwire {α : Type} {all : List α} {t : Codes α} {wire : α → Byte} (b : Option Byte) (hall : ∀ u, u ∈ all)
    (hcodes : (all.map t.wire).Nodup) (hwire : ∀ v, t.wire v = wire v) : FieldRead b wire (b.bind (unwire all t)) := by
  have hinj : Function.Injective t.wire := fun u w => List.inj_on_of_nodup_map hcodes (hall u) (hall w)
  intro v
  simp only [Option.bind_eq_some_iff, unwire_eq_some_iff hall hinj, hwire, exists_eq_right']

/-- A field behind a domain guard is valid exactly when there is a byte and it is in the domain. -/
theorem bind_guard_eq_some_iff {β : Type} {b : Option Byte} {p : Byte → Prop} [DecidablePred p] {f : Byte → β} {d : β} :
    (b.bind fun x => if p x then some (f x) else none) = some d ↔ ∃ x, b = some x ∧ p x ∧ d = f x := by
  simp [Option.bind_eq_some_iff, eq_comm (a := d)]

theorem decodeSettings_read (q : Nat → Option Byte) : SettingsRead q (decodeSettings codec q) := by
  obtain ⟨hpower, hmode, hfan, hvane, hwide⟩ := wireCodeTables
  refine ⟨fieldRead_unwire _ mem_allPower (by decide) hpower, fieldRead_unwire _ mem_allMode (by decide) hmode,
    fieldRead_unwire _ mem_allFan (by decide) hfan, fieldRead_unwire _ mem_allVane (by decide) hvane,
    fieldRead_unwire _ mem_allWideVane (by decide) hwide, fun d => bind_guard_eq_some_iff.trans ?_⟩
  refine exists_congr fun b => and_congr_right fun _ => ?_
  rw [tempInDomain, decide_eq_true_eq]
  exact and_congr_right fun hb => by rw [byteToTemp_of_le hb]

theorem decodeRoomTemp_read (q : Nat → Option Byte) : RoomTempRead q (decodeRoomTemp codec q) := by
  refine ⟨fun d => bind_guard_eq_some_iff.trans ?_, fun v => bind_guard_eq_some_iff.trans ?_⟩
  · refine exists_congr fun b => and_congr_right fun _ => ?_
    rw [roomInDomain, decide_eq_true_eq]
    exact and_congr_right fun hb => by rw [byteToRoomTemp_of_le hb]
  · constructor
    · rintro ⟨b, hb, hne, rfl⟩
      exact ⟨hb, hne⟩
    · rintro ⟨hv, hne⟩
      exact ⟨v, hv, hne, rfl⟩

/-! ## Pushed sequences (R181 to R184) -/

theorem pushes_append (xs ys : List Byte) : pushes (xs ++ ys) = pushes xs ++ pushes ys := List.map_append

theorem issue_rxReset (s : State) : (issue ⟨0x0500, 0⟩ s).rx = Rx.empty := by
  have hreset : decodeCommand ⟨0x0500, 0⟩ = .ok .rxReset := decodeCommand_of_encode (i := .rxReset) 0 rfl rfl
  rw [issue_of_ok s hreset]
  rfl

/-- An emitted frame, read out of the transmit buffer and pushed into an Empty assembler, is valid, and RX_DECODE runs its row. -/
theorem emitted_frame_loopsBack {t : State} {mt : Byte} {pl : List Byte} {i : Instr} (h0 : t.rx.cursor = 0)
    (hl : pl.length ≤ 26) (htx : t.tx = emit codec mt pl) (he : encode i = .wire (frame mt pl)) :
    let u := runCommands (pushes (firstBytes t.tx.buf t.tx.len)) t
    u.rx.valid = true ∧ exec .rxDecode u = exec i u := by
  have hbytes : firstBytes t.tx.buf t.tx.len = frame mt pl := by
    rw [htx]
    exact emit_firstBytes codec mt (by rw [codec_txCap]; omega)
  obtain ⟨_, _, _, hvalid, _, hrow, _⟩ := pushedFrameIsDecoded mt pl t hl h0
  rw [hbytes]
  exact ⟨hvalid, hrow i he⟩

end Sys2Proof.Machine

namespace Sys2Proof.Claims

open Sys2Proof.Machine

/-- Settles O18, by the cursor: empty, with room, full. -/
theorem rxPushByCursor : Obligations.RxPushByCursor := by
  intro b s p
  simp only [exec_rxPush_eq]
  refine ⟨decodeCommand_of_encode p rfl rfl, fun hc hb => ?_, fun hc hb => ?_, fun h0 hc => ?_, fun hc => ?_⟩
  · rw [Rx.push_empty_of_ne_start hc hb]
  · rw [Rx.push_empty_of_start hc hb, Rx.append, hc, hb]
  · rw [Rx.push_of_room h0 hc, Rx.append]
  · split_ifs with hd hb
    · rw [Rx.push_full_of_drop hc hd.1 hd.2]
    · rw [Rx.push_full_eq hc hd, if_pos hb]
    · rw [Rx.push_full_eq hc hd, if_neg hb]

/-- Settles O22: a valid frame is answered by the row of its type, and a current-settings-response by its sub-tag. -/
theorem rxDecodeDispatch : Obligations.RxDecodeDispatch := by
  refine ⟨fun imm p => decodeCommand_of_zeroImm imm p (by decide) rfl rfl, fun s => ⟨fun h => ?_, fun h => ?_⟩⟩
  · rw [exec_rxDecode_eq, Rx.decoded_of_not_valid (by simpa [validFrame_iff] using h)]
  · obtain ⟨pl, _, hrow⟩ := exec_rxDecode_of_validFrame h
    refine ⟨fun hmt => hrow (.frameConnect pl) hmt rfl, fun hmt => hrow (.frameSettingsWrite pl) hmt rfl,
      fun hmt => hrow (.frameInfoRequest pl) hmt rfl, fun hmt htag => ?_, fun hmt htag => ?_, fun hmt h2 h3 => ?_,
      fun hmt => hrow (.frameStatusOk pl) hmt rfl, fun hmt => hrow (.frameStatusNotOk pl) hmt rfl,
      fun h1 h2 h3 h4 h5 h6 => ?_⟩
    · rw [exec_rxDecode_of_curSettings h hmt, decodeCurrent_of_settings htag]
    · rw [exec_rxDecode_of_curSettings h hmt, decodeCurrent_of_roomTemp htag]
    · rw [exec_rxDecode_of_curSettings h hmt, decodeCurrent_of_other h2 h3]
    · rw [exec_rxDecode_eq, Rx.decoded_of_unlisted (validFrame_iff.1 h) ⟨h1, h2, h3, h4, h5, h6⟩]

/-- Settles O23: every field has its own byte, whatever the others hold. -/
theorem decodedSettingsFields : Obligations.DecodedSettingsFields := by
  refine ⟨decodeSettings_read, fun s h hmt htag => ⟨_, ?_, decodeSettings_read _⟩⟩
  rw [exec_rxDecode_of_curSettings h hmt, decodeCurrent_of_settings htag]

/-- Settles O24, as for the settings record. -/
theorem decodedRoomTempFields : Obligations.DecodedRoomTempFields := by
  refine ⟨decodeRoomTemp_read, fun s h hmt htag => ⟨_, ?_, decodeRoomTemp_read _⟩⟩
  rw [exec_rxDecode_of_curSettings h hmt, decodeCurrent_of_roomTemp htag]

/-- Settles O31: noise without the marker, and RX_RESET after any noise, leave the assembler Empty for the frame. -/
theorem resynchronizationAfterNoise : Obligations.ResynchronizationAfterNoise := by
  intro noise mt payload s hl
  obtain ⟨hrx, _⟩ := runCommands_pushes noise s
  refine ⟨fun h0 hnoise => ?_, ?_⟩
  · rw [Rx.feed_noise _ h0 hnoise] at hrx
    rw [pushes_append, runCommands_append]
    exact ⟨hrx, (runCommands_pushes_frame mt hl (by rw [hrx, h0])).2⟩
  · have hempty := issue_rxReset (runCommands (pushes noise) s)
    rw [runCommands_append, runCommands_append]
    exact (runCommands_pushes_frame mt hl (by rw [runCommands_cons, runCommands_nil, hempty, Rx.empty_cursor])).2

/-- Settles O33, command by command: each emits a frame whose row is its own kind. -/
theorem encodedFramesLoopBack : Obligations.EncodedFramesLoopBack := by
  intro s h0
  simp only [exec_next_iff]
  refine ⟨?_, ?_, ?_⟩
  · rintro _ rfl
    exact emitted_frame_loopsBack (i := .frameConnect _) h0 (by decide) rfl rfl
  · rintro k _ rfl
    exact emitted_frame_loopsBack (i := .frameInfoRequest _) h0 (by simp [codec]) rfl rfl
  · rintro st _ rfl
    exact emitted_frame_loopsBack (i := .frameSettingsWrite _) h0 (by simp [codec]) rfl rfl

/-- Settles O19: the policy is read on a full buffer with a valid frame and nowhere else. -/
theorem fullValidPolicyValues : Obligations.FullValidPolicyValues := by
  refine ⟨fun b r hc hv => ⟨Rx.push_full_of_drop hc hv rfl, Rx.push_full_eq hc (by simp)⟩,
    fun p b r hc hv => Rx.push_full_eq hc (by simp [hv]), fun b r h => ?_, exec_rxPush_eq⟩
  by_cases hc : r.cursor = 32
  · have hv : ¬ r.valid = true := fun hv => h ⟨hc, hv⟩
    rw [Rx.push_full_eq hc fun hd => hv hd.1, Rx.push_full_eq hc fun hd => hv hd.1]
  · rw [Rx.push_of_not_full hc, Rx.push_of_not_full hc]

/-- Settles O20: the response is `rx_complete`. -/
theorem rxCompleteResult : Obligations.RxCompleteResult := by
  refine ⟨fun imm p => decodeCommand_of_zeroImm imm p (by decide) rfl rfl, fun s => ?_⟩
  rw [exec_of_readsOnly s rfl, Bool.decide_and]
  rfl

/-- Settles O21: the response is `rx_valid`. -/
theorem rxValidResult : Obligations.RxValidResult := by
  refine ⟨fun imm p => decodeCommand_of_zeroImm imm p (by decide) rfl rfl, fun s => ?_⟩
  have he : exec .rxValid s = Responded (.bool s.rx.valid) s := exec_of_readsOnly s rfl
  rw [he, validFrame_iff]
  exact ⟨fun hv => by rw [hv], fun hv => by rw [Bool.eq_false_of_not_eq_true hv]⟩

/-- Settles O25: the next state is the emptied one, from which RX_RESET comes back to it. -/
theorem rxResetResult : Obligations.RxResetResult :=
  ⟨fun imm p => decodeCommand_of_zeroImm imm p (by decide) rfl rfl, fun s => ⟨_, exec_spec _ s, rfl, rfl, rfl, rfl⟩⟩

/-- Settles O26: five rows answer a tag, and a current-settings-response by its first payload byte. -/
theorem frameRowsRespond : Obligations.FrameRowsRespond := by
  intro p s
  have hcur : ∀ pl, exec (.frameCurSettings pl) s = Responded (.decoded (decodeCurrent codec fun k => pl[k]?)) s :=
    fun _ => exec_of_readsOnly s rfl
  refine ⟨exec_of_readsOnly s rfl, exec_of_readsOnly s rfl, exec_of_readsOnly s rfl, exec_of_readsOnly s rfl,
    exec_of_readsOnly s rfl, ?_, ?_, ?_, fun tag h2 h3 => ?_⟩
  · rw [hcur, decodeCurrent_of_settings rfl]
  · rw [hcur, decodeCurrent_of_roomTemp rfl]
  · rw [hcur, decodeCurrent_of_other (by simp) (by simp)]
  · rw [hcur, decodeCurrent_of_other (by simpa using h2) (by simpa using h3)]

end Sys2Proof.Claims

/-! PROOFS. The encoder (spec/42_encoder.md): what an operand of TX_SETTINGS is refused for, the settings-write frame byte by byte,
what an encode command leaves, and the read-out and conversion commands. -/

namespace Sys2Proof.Machine

open Sys2Proof.Claims

/-! ## What TX_SETTINGS accepts (R79, R81, R248) -/

/-- An enum field unpacks unless it is valid with an index past the end of the enum (R81). -/
theorem exists_unpackField_iff {α : Type} {all : List α} {n bit width : Nat} :
    (∃ f, unpackField all n bit width = .ok f) ↔ ¬ (n / 2 ^ bit % 2 = 1 ∧ all.length ≤ n / 2 ^ (bit + 1) % 2 ^ width) := by
  have hbit : bitsAt n bit 1 = n / 2 ^ bit % 2 := rfl
  have hindex : bitsAt n (bit + 1) width = n / 2 ^ (bit + 1) % 2 ^ width := rfl
  rw [unpackField, hbit, hindex]
  split_ifs with hinvalid
  · simp [hinvalid]
  · have hvalid : n / 2 ^ bit % 2 = 1 := by omega
    split
    · next v hv =>
      obtain ⟨hlt, _⟩ := List.getElem?_eq_some_iff.1 hv
      simp [hvalid, hlt]
    · next hv => simp [hvalid, List.getElem?_eq_none_iff.1 hv]

theorem reservedPortBits_iff {p : Port32} : ReservedPortBits ⟨0x1200, p⟩ ↔ bitsAt p.toNat 27 5 ≠ 0 := by
  have hop : opNat ⟨0x1200, p⟩ = 0x12 := opNat_append 0x12 0x00 p
  have hlt : p.toNat / 2 ^ 27 < 2 ^ 5 := by
    have := p.isLt
    omega
  rw [ReservedPortBits, hop, bitsAt, Nat.mod_eq_of_lt hlt]
  simp

/-- An operand spells a record exactly when no reserved bit is set and no valid field holds a reserved index. Power has no
reserved index, as its index is one bit. -/
theorem exists_unpackSettings_iff {p : Port32} :
    (∃ st, unpackSettings p = .ok st) ↔ ¬ ReservedPortBits ⟨0x1200, p⟩ ∧ ¬ ReservedIndex ⟨0x1200, p⟩ := by
  have hop : opNat ⟨0x1200, p⟩ = 0x12 := opNat_append 0x12 0x00 p
  have hfields : (∃ st, unpackSettings p = .ok st) ↔ bitsAt p.toNat 27 5 = 0
      ∧ (∃ f, unpackField allPower p.toNat 0 1 = .ok f) ∧ (∃ f, unpackField allMode p.toNat 2 3 = .ok f)
      ∧ (∃ f, unpackField allFan p.toNat 6 3 = .ok f) ∧ (∃ f, unpackField allVane p.toNat 10 3 = .ok f)
      ∧ ∃ f, unpackField allWideVane p.toNat 14 3 = .ok f := by
    simp only [unpackSettings_eq_ok_iff]
    constructor
    · rintro ⟨st, hbits, ⟨hpower, hmode, hfan, hvane, hwide⟩, _⟩
      exact ⟨hbits, ⟨_, hpower⟩, ⟨_, hmode⟩, ⟨_, hfan⟩, ⟨_, hvane⟩, _, hwide⟩
    · rintro ⟨hbits, ⟨power, hpower⟩, ⟨mode, hmode⟩, ⟨fan, hfan⟩, ⟨vane, hvane⟩, wideVane, hwide⟩
      exact ⟨⟨power, mode, fan, vane, wideVane, unpackTemp p.toNat⟩, hbits, ⟨hpower, hmode, hfan, hvane, hwide⟩, rfl⟩
  rw [hfields, reservedPortBits_iff, not_not]
  simp only [exists_unpackField_iff, ReservedIndex, hop, true_and, not_or]
  have hpower : p.toNat / 2 ^ (0 + 1) % 2 ^ 1 < 2 := Nat.mod_lt _ (by decide)
  have hlen : allPower.length = 2 := rfl
  refine and_congr_right fun _ => ⟨fun h => h.2, fun h => ⟨fun h2 => ?_, h⟩⟩
  omega

/-- Without a reserved bit, the one refusal of an operand is a reserved index. -/
theorem unpackSettings_of_reservedIndex {p : Port32} (hbits : ¬ ReservedPortBits ⟨0x1200, p⟩)
    (hindex : ReservedIndex ⟨0x1200, p⟩) : unpackSettings p = .error .reservedEnumIndex := by
  have hnone : ∀ st, unpackSettings p ≠ .ok st := fun st h => (exists_unpackSettings_iff.1 ⟨st, h⟩).2 hindex
  rw [reservedPortBits_iff] at hbits
  unfold unpackSettings at hnone ⊢
  rw [if_neg hbits] at hnone ⊢
  split at hnone
  · exact absurd rfl (hnone _)
  · rfl

theorem unpackSettings_of_reservedPortBits {p : Port32} (h : ReservedPortBits ⟨0x1200, p⟩) :
    unpackSettings p = .error .nonZeroReservedBits := if_pos (reservedPortBits_iff.1 h)

theorem decodeCommand_txSettings (p : Port32) : decodeCommand ⟨0x1200, p⟩ = (unpackSettings p).map .txSettings := by
  have hword : (0x1200 : CmdWord) = cmdWord 0x12 0x00 := rfl
  rw [hword]
  simp only [decodeCommand, cmdOp_cmdWord, cmdImm_cmdWord, decodeTxSettings]
  cases unpackSettings p <;> rfl

/-! ## The settings-write frame (R95 to R97) -/

theorem putField_eq_set {α : Type} (f : Option α) (wire : α → Byte) {off : Nat} {pl : List Byte} (h : pl[off]? = some 0x00) :
    putField f wire off pl = pl.set off (fieldByte f wire) := by
  cases f with
  | none =>
    obtain ⟨hlt, hzero⟩ := List.getElem?_eq_some_iff.1 h
    rw [fieldByte, ← hzero, List.set_getElem_self]
    rfl
  | some v => rfl

theorem controlBit_eq_ite {α : Type} (f : Option α) (mask : Byte) : controlBit f mask = if f.isSome then mask else 0x00 := by
  cases f <;> rfl

theorem controlBits_eq_controlByte (st : Settings) : controlBits st = controlByte st := by
  simp only [controlBits, controlByte, controlBit_eq_ite]
  generalize st.power.isSome = a, st.mode.isSome = b, st.temp.isSome = c, st.fan.isSome = d, st.vane.isSome = e,
    st.wideVane.isSome = f
  revert a b c d e f
  decide

/-- The masks of R97 are distinct bits. -/
theorem controlByte_bits (st : Settings) :
    (controlByte st).getLsbD 0 = st.power.isSome ∧ (controlByte st).getLsbD 1 = st.mode.isSome
      ∧ (controlByte st).getLsbD 2 = st.temp.isSome ∧ (controlByte st).getLsbD 3 = st.fan.isSome
      ∧ (controlByte st).getLsbD 4 = st.vane.isSome ∧ (controlByte st).getLsbD 5 = false ∧ (controlByte st).getLsbD 6 = false
      ∧ (controlByte st).getLsbD 7 = st.wideVane.isSome := by
  unfold controlByte
  generalize st.power.isSome = a, st.mode.isSome = b, st.temp.isSome = c, st.fan.isSome = d, st.vane.isSome = e,
    st.wideVane.isSome = f
  revert a b c d e f
  decide

theorem tempByte_eq_tempToByte : tempByte = tempToByte := rfl

/-- The payload field by field: each offset of R96 is written once, over a zero byte. -/
theorem frameBytes_settingsPayload (st : Settings) :
    frameBytes 0x41 (settingsPayload codec st) = settingsBody st ++ [chk (settingsBody st)] := by
  obtain ⟨hpower, hmode, hfan, hvane, hwide⟩ := wireCodeTables
  have hpl : [0xFC, 0x41, 0x01, 0x30, 0x10] ++ settingsPayload codec st = settingsBody st := by
    have hzeros : List.replicate codec.swLen (0x00 : Byte) = [0, 0, 0, 0, 0, 0, 0, 0, 0, 0, 0, 0, 0, 0, 0, 0] := rfl
    rw [settingsPayload, hzeros, funext hpower, funext hmode, funext hfan, funext hvane, funext hwide,
      controlBits_eq_controlByte]
    simp [putField_eq_set, codec, settingsBody, tempByte_eq_tempToByte]
  rw [frameBytes_eq, settingsPayload_length, ← hpl]
  rfl

/-! ## What an encode command leaves (R211) -/

/-- An emission leaves the frame in the transmit buffer, zeros after it, and the frame's length as `tx_len` and as response. -/
theorem emitAndRespond_encoded (mt : Byte) (pl : List Byte) (s : State) :
    ∃ t, emitAndRespond mt pl s = .next t ∧ Encoded s t (frameBytes mt pl) := by
  refine ⟨_, rfl, ⟨(frameBytes_length mt pl).symm, fun i hi => emit_byte codec mt pl hi⟩, ?_, rfl, rfl, rfl⟩
  rw [frameBytes_length]

theorem exec_txSettings_encoded (st : Settings) (s : State) :
    ∃ t, exec (.txSettings st) s = .next t ∧ Encoded s t (settingsBody st ++ [chk (settingsBody st)]) := by
  rw [← frameBytes_settingsPayload]
  exact emitAndRespond_encoded _ _ s

/-- The bytes of the frame that depend on the record, at their offsets of R96. -/
theorem txSettings_bytes {st : Settings} {s t : State} (h : exec (.txSettings st) s = .next t) :
    t.tx.byte 6 = controlByte st ∧ t.tx.byte 8 = fieldByte st.power powerWire ∧ t.tx.byte 9 = fieldByte st.mode modeWire
      ∧ t.tx.byte 10 = fieldByte st.temp tempToByte ∧ t.tx.byte 11 = fieldByte st.fan fanWire
      ∧ t.tx.byte 12 = fieldByte st.vane vaneWire ∧ t.tx.byte 18 = fieldByte st.wideVane wideVaneWire := by
  obtain ⟨u, hu, ⟨_, hbytes⟩, _⟩ := exec_txSettings_encoded st s
  cases h.symm.trans hu
  exact ⟨hbytes 6 (by decide), hbytes 8 (by decide), hbytes 9 (by decide), hbytes 10 (by decide), hbytes 11 (by decide),
    hbytes 12 (by decide), hbytes 18 (by decide)⟩

/-! ## TX_INFO_REQ and TX_READ (R213, R218) -/

theorem frameBytes_infoReqPayload_settings :
    frameBytes 0x42 (infoReqPayload codec .settings)
      = [0xFC, 0x42, 0x01, 0x30, 0x10, 0x02] ++ List.replicate 15 0x00 ++ [0x7B] := by
  decide

theorem frameBytes_infoReqPayload_roomTemp :
    frameBytes 0x42 (infoReqPayload codec .roomTemp)
      = [0xFC, 0x42, 0x01, 0x30, 0x10, 0x03] ++ List.replicate 15 0x00 ++ [0x7A] := by
  decide

theorem exec_txRead_eq (i : BitVec 5) (s : State) : exec (.txRead i) s = Responded (.byte (s.tx.byte i.toNat)) s :=
  exec_of_readsOnly s rfl

/-! ## The conversions outside their domains (R124, R126) -/

theorem byteToTemp_of_lt {b : Byte} (h : 0x0F < b.toNat) : byteToTemp b = 0 := if_neg (by omega)

theorem byteToRoomTemp_of_lt {b : Byte} (h : 0x1F < b.toNat) : byteToRoomTemp b = 0 := if_neg (by omega)

/-! ## The record behind a settings-write frame (R215) -/

theorem settings_ext {a b : Settings} (hpower : a.power = b.power) (hmode : a.mode = b.mode) (hfan : a.fan = b.fan)
    (hvane : a.vane = b.vane) (hwide : a.wideVane = b.wideVane) (htemp : a.temp = b.temp) : a = b := by
  cases a
  cases b
  cases hpower
  cases hmode
  cases hfan
  cases hvane
  cases hwide
  cases htemp
  rfl

/-- The control bits give which fields are valid. -/
theorem valid_eq_of_controlByte_eq {a b : Settings} (h : controlByte a = controlByte b) :
    a.power.isSome = b.power.isSome ∧ a.mode.isSome = b.mode.isSome ∧ a.temp.isSome = b.temp.isSome
      ∧ a.fan.isSome = b.fan.isSome ∧ a.vane.isSome = b.vane.isSome ∧ a.wideVane.isSome = b.wideVane.isSome := by
  obtain ⟨apower, amode, atemp, afan, avane, _, _, awide⟩ := controlByte_bits a
  obtain ⟨bpower, bmode, btemp, bfan, bvane, _, _, bwide⟩ := controlByte_bits b
  rw [← apower, ← amode, ← atemp, ← afan, ← avane, ← awide, h]
  exact ⟨bpower, bmode, btemp, bfan, bvane, bwide⟩

theorem tempToByte_inj {u v : Int} (hu : 16 ≤ u ∧ u ≤ 31) (hv : 16 ≤ v ∧ v ≤ 31) (h : tempToByte u = tempToByte v) :
    u = v := by
  rw [← byteToTemp_tempToByte hu.1 hu.2, h, byteToTemp_tempToByte hv.1 hv.2]

/-- A field is determined by its control bit and its byte when no two of its values share a byte. -/
theorem eq_of_fieldByte_eq {α : Type} {f g : Option α} {wire : α → Byte} (hvalid : f.isSome = g.isSome)
    (hbyte : fieldByte f wire = fieldByte g wire) (hinj : ∀ u v, f = some u → g = some v → wire u = wire v → u = v) :
    f = g := by
  cases f with
  | none =>
    cases g with
    | none => rfl
    | some v => cases hvalid
  | some u =>
    cases g with
    | none => cases hvalid
    | some v => exact congrArg some (hinj u v rfl rfl hbyte)

/-- An enum field is determined when its codes are distinct. -/
theorem eq_of_fieldByte_eq_of_nodup {α : Type} {all : List α} {f g : Option α} {wire : α → Byte} (hall : ∀ u, u ∈ all)
    (hcodes : (all.map wire).Nodup) (hvalid : f.isSome = g.isSome) (hbyte : fieldByte f wire = fieldByte g wire) : f = g :=
  eq_of_fieldByte_eq hvalid hbyte fun u v _ _ => @List.inj_on_of_nodup_map _ _ wire all hcodes u (hall u) v (hall v)

end Sys2Proof.Machine

namespace Sys2Proof.Claims

open Sys2Proof.Machine

/-- Settles O46: an operand is refused for its bits, then for an index, and otherwise spells the record it unpacks to. -/
theorem txSettingsResult : Obligations.TxSettingsResult := by
  refine ⟨fun imm p himm => ?_, fun p => ⟨fun h => ?_, fun h h' => ?_, fun h h' => ?_⟩, exec_txSettings_encoded⟩
  · have hne : imm.toNat ≠ 0 := fun h => himm (BitVec.eq_of_toNat_eq h)
    refine decodeCommand_of_nonZeroImm (.inl ⟨?_, by rwa [immNat_append]⟩)
    simp [opNat_append]
  · rw [decodeCommand_txSettings, unpackSettings_of_reservedPortBits h]
    rfl
  · rw [decodeCommand_txSettings, unpackSettings_of_reservedIndex h h']
    rfl
  · obtain ⟨st, hst⟩ := exists_unpackSettings_iff.2 ⟨h, h'⟩
    refine ⟨st, layout_of_unpackSettings hst, wf_of_unpackSettings hst, ?_⟩
    rw [decodeCommand_txSettings, hst]
    rfl

/-- Settles O47: the byte is the control byte of the frame. -/
theorem controlBitsByField : Obligations.ControlBitsByField := by
  intro st s
  obtain ⟨t, ht, _⟩ := exec_txSettings_encoded st s
  obtain ⟨h6, _⟩ := txSettings_bytes ht
  refine ⟨t, ht, ?_⟩
  rw [h6]
  exact controlByte_bits st

/-- Settles O49: the control bits give which fields are valid, and each valid field's byte gives its value. -/
theorem settingsFrameDeterminesTheRecord : Obligations.SettingsFrameDeterminesTheRecord := by
  intro a b s t ha hb hea heb
  obtain ⟨a6, a8, a9, a10, a11, a12, a18⟩ := txSettings_bytes hea
  obtain ⟨b6, b8, b9, b10, b11, b12, b18⟩ := txSettings_bytes heb
  obtain ⟨vpower, vmode, vtemp, vfan, vvane, vwide⟩ := valid_eq_of_controlByte_eq (a6.symm.trans b6)
  exact settings_ext (eq_of_fieldByte_eq_of_nodup mem_allPower (by decide) vpower (a8.symm.trans b8))
    (eq_of_fieldByte_eq_of_nodup mem_allMode (by decide) vmode (a9.symm.trans b9))
    (eq_of_fieldByte_eq_of_nodup mem_allFan (by decide) vfan (a11.symm.trans b11))
    (eq_of_fieldByte_eq_of_nodup mem_allVane (by decide) vvane (a12.symm.trans b12))
    (eq_of_fieldByte_eq_of_nodup mem_allWideVane (by decide) vwide (a18.symm.trans b18))
    (eq_of_fieldByte_eq vtemp (a10.symm.trans b10) fun u v hu hv => tempToByte_inj (ha u hu) (hb v hv))

/-- Settles O44: the frame of R93. -/
theorem txConnectResult : Obligations.TxConnectResult :=
  ⟨fun imm p => decodeCommand_of_zeroImm imm p (by decide) rfl rfl, emitAndRespond_encoded 0x5A [0xCA, 0x01]⟩

/-- Settles O45: bit 0 of the immediate is the kind, and the other bits must be zero. -/
theorem txInfoReqResult : Obligations.TxInfoReqResult := by
  refine ⟨fun imm p => ?_, fun s => ⟨?_, ?_⟩⟩
  · split_ifs with h0 h1
    · subst h0
      exact decodeCommand_of_encode p rfl rfl
    · subst h1
      exact decodeCommand_of_encode p rfl rfl
    · have hne0 : imm.toNat ≠ 0 := fun h => h0 (BitVec.eq_of_toNat_eq h)
      have hne1 : imm.toNat ≠ 1 := fun h => h1 (BitVec.eq_of_toNat_eq h)
      refine decodeCommand_of_nonZeroImm (.inr (.inl ⟨opNat_append 0x11 imm p, ?_⟩))
      rw [immNat_append]
      omega
  · rw [← frameBytes_infoReqPayload_settings]
    exact emitAndRespond_encoded _ _ s
  · rw [← frameBytes_infoReqPayload_roomTemp]
    exact emitAndRespond_encoded _ _ s

/-- Settles O48: an operand is packed whatever its temperature, and the temperature byte of R123 is zero outside 16..31. -/
theorem outOfRangeTemperatureIsSent : Obligations.OutOfRangeTemperatureIsSent := by
  refine ⟨fun st hwf => decodeCommand_eq_ok_iff.2 (Command.spells_of_encode hwf rfl), fun st d s hd hrange => ?_⟩
  obtain ⟨t, ht, _⟩ := exec_txSettings_encoded st s
  obtain ⟨h6, _, _, h10, _⟩ := txSettings_bytes ht
  obtain ⟨_, _, htemp, _⟩ := controlByte_bits st
  refine ⟨t, ht, ?_, ?_⟩
  · rw [h10, hd, fieldByte, tempToByte_of_not_mem hrange]
  · rw [h6, htemp, hd]
    rfl

/-- Settles O50: the bytes past the frame are zero by the transmit-side invariant. -/
theorem txReadResult : Obligations.TxReadResult := by
  refine ⟨fun imm p => ?_, exec_txRead_eq, fun i s hinv hlen => ?_⟩
  · split_ifs with hlt
    · have himm : (BitVec.ofNat 5 imm.toNat).setWidth 8 = imm := by
        apply BitVec.eq_of_toNat_eq
        rw [BitVec.toNat_setWidth, BitVec.toNat_ofNat]
        omega
      exact decodeCommand_of_encode p rfl (by rw [encode, himm]; rfl)
    · refine decodeCommand_of_nonZeroImm (.inr (.inr ⟨opNat_append 0x13 imm p, ?_⟩))
      rw [immNat_append]
      omega
  · obtain ⟨_, hzero, _⟩ := hinv
    rw [exec_txRead_eq, hzero i.toNat i.isLt hlen]

/-- Settles O52: inside the domain the value is an integer below 32, so it is its own byte. -/
theorem cvB2tResult : Obligations.CvB2tResult := by
  refine ⟨fun imm p => decodeCommand_of_encode p rfl rfl, fun b s => ?_⟩
  have he : exec (.cvB2t b) s = Responded (.byte (BitVec.ofInt 8 (byteToTemp b))) s := exec_of_readsOnly s rfl
  refine ⟨fun h => ?_, fun h => ?_⟩
  · have hcast : 31 - (b.toNat : Int) = ((31 - b.toNat : Nat) : Int) := by omega
    rw [he, byteToTemp_of_le h, hcast, BitVec.ofInt_natCast]
  · rw [he, byteToTemp_of_lt h]
    rfl

/-- Settles O54, as for CV_B2T with the domain of R126. -/
theorem cvB2rResult : Obligations.CvB2rResult := by
  refine ⟨fun imm p => decodeCommand_of_encode p rfl rfl, fun b s => ?_⟩
  have he : exec (.cvB2r b) s = Responded (.byte (BitVec.ofInt 8 (byteToRoomTemp b))) s := exec_of_readsOnly s rfl
  refine ⟨fun h => ?_, fun h => ?_⟩
  · have hcast : (b.toNat : Int) + 10 = ((b.toNat + 10 : Nat) : Int) := by omega
    rw [he, byteToRoomTemp_of_le h, hcast, BitVec.ofInt_natCast]
  · rw [he, byteToRoomTemp_of_lt h]
    rfl

end Sys2Proof.Claims

/-! PROOFS. Refusals (spec/60_exceptions.md): the order of a command's checks, what refused commands leave of a run, and the two
ways of running the host's program. -/

namespace Sys2Proof.Machine

open Sys2Proof.Claims

/-! ## The checks of one command (R248) -/

theorem exists_mustBeZero_eq_ok {imm : Byte} {lo : Nat} {i : Instr} (h : imm.toNat / 2 ^ lo = 0) :
    ∃ j, mustBeZero imm lo i = .ok j := ⟨i, mustBeZero_eq_ok_iff.2 ⟨h, rfl⟩⟩

/-- A TX_SETTINGS that passes the check of its immediate is the one word 0x1200, with some operand. -/
theorem exists_operand_of_txSettings {c : Command} (hop : opNat c = 0x12) (himm : ¬ NonZeroImm c) :
    ∃ p, c = ⟨0x1200, p⟩ := by
  have h0 : immNat c = 0 := by
    rw [NonZeroImm] at himm
    omega
  have hword : c.word = 0x1200 := by
    apply BitVec.eq_of_toNat_eq
    rw [opNat] at hop
    rw [immNat] at h0
    change c.word.toNat = 0x1200
    omega
  exact ⟨c.settingsIn, by rw [← hword]⟩

/-- A command without an operand that passes the checks of its opcode and its immediate decodes: row by row of the opcode
map (R72). -/
theorem exists_decode_of_not_txSettings {c : Command} (hop : ¬ ReservedOp c) (himm : ¬ NonZeroImm c) (hset : opNat c ≠ 0x12) :
    ∃ i, decodeCommand c = .ok i := by
  rw [ReservedOp, ← cmdOp_toNat] at hop
  rw [NonZeroImm, ← cmdOp_toNat, ← cmdImm_toNat] at himm
  rw [← cmdOp_toNat] at hset
  unfold decodeCommand
  split
  case h_1 | h_10 | h_11 | h_12 | h_13 => exact ⟨_, rfl⟩
  case h_8 h => exact absurd h hset
  case h_14 =>
    simp only [imp_false] at *
    omega
  all_goals exact exists_mustBeZero_eq_ok (by omega)

/-! ## The run and its refused commands (R246) -/

/-- A command is legal or refused. -/
theorem decodeCommand_cases (c : Command) :
    (∃ i, decodeCommand c = .ok i ∧ (decodeCommand c).isOk = true)
      ∨ ∃ r, decodeCommand c = .error r ∧ (decodeCommand c).isOk = false := by
  cases hd : decodeCommand c with
  | ok i => exact .inl ⟨i, rfl, rfl⟩
  | error r => exact .inr ⟨r, rfl, rfl⟩

/-- Issuing a command marks the run exactly when the command is refused, and removes no mark. -/
theorem issue_refusalMark_eq_none_iff (c : Command) (s : State) :
    (issue c s).refusalMark = none ↔ s.refusalMark = none ∧ (decodeCommand c).isOk = true := by
  obtain ⟨i, hd, hok⟩ | ⟨r, hd, hok⟩ := decodeCommand_cases c
  · simp [issue_of_ok s hd, hok]
  · simp [issue_of_error s hd, hok]

/-- A mark keeps the reason recorded first. -/
theorem issue_refusalMark_of_marked (c : Command) {s : State} {r : RefuseReason} (h : s.refusalMark = some r) :
    (issue c s).refusalMark = some r := by
  cases hd : decodeCommand c with
  | ok i => rw [issue_of_ok s hd, h]
  | error q => rw [issue_of_error s hd, markRefusal_refusalMark, h, Option.getD_some]

theorem runCommands_refusalMark_of_marked (cs : List Command) {s : State} {r : RefuseReason} (h : s.refusalMark = some r) :
    (runCommands cs s).refusalMark = some r := by
  induction cs generalizing s with
  | nil => exact h
  | cons c cs ih => exact ih (issue_refusalMark_of_marked c h)

theorem runCommands_refusalMark_eq_none_iff (cs : List Command) (s : State) :
    (runCommands cs s).refusalMark = none ↔ s.refusalMark = none ∧ ∀ c ∈ cs, (decodeCommand c).isOk = true := by
  induction cs generalizing s with
  | nil => simp
  | cons c cs ih => rw [runCommands_cons, ih, issue_refusalMark_eq_none_iff, List.forall_mem_cons, and_assoc]

/-- What a legal command does to the two sides depends on the two sides alone. -/
theorem sameBlock_issue_of_ok {c : Command} {i : Instr} {s t : State} (h : SameBlock s t) (hd : decodeCommand c = .ok i) :
    SameBlock (issue c s) (issue c t) := by
  obtain ⟨hrx, htx⟩ := h
  rw [issue_of_ok s hd, issue_of_ok t hd, hrx, htx]
  exact ⟨rfl, rfl⟩

/-- Dropping the refused commands from a run keeps the block state it ends in. -/
theorem sameBlock_runCommands_filter (cs : List Command) {s t : State} (h : SameBlock s t) :
    SameBlock (runCommands (cs.filter fun c => (decodeCommand c).isOk) s) (runCommands cs t) := by
  induction cs generalizing s t with
  | nil => exact h
  | cons c cs ih =>
    obtain ⟨i, hd, hok⟩ | ⟨r, hd, hok⟩ := decodeCommand_cases c
    · rw [List.filter_cons, if_pos hok]
      exact ih (sameBlock_issue_of_ok h hd)
    · rw [List.filter_cons, if_neg (by simp [hok]), runCommands_cons, issue_of_error t hd]
      exact ih h

/-! ## Steps and issued commands (R62, R246) -/

/-- Issuing a command neither reads nor changes the commands that are pending. -/
theorem issue_with_pending (c : Command) (s : State) (p : List Command) :
    issue c { s with pending := p } = { issue c s with pending := p } := by
  cases hd : decodeCommand c with
  | ok i => rw [issue_of_ok _ hd, issue_of_ok s hd]
  | error r => rw [issue_of_error _ hd, issue_of_error s hd]; rfl

/-- The step of a legal command issues it. -/
theorem step_eq_issue {s : State} {c : Command} {rest : List Command} (h : s.pending = c :: rest)
    (hok : (decodeCommand c).isOk = true) : step s = .next { issue c s with pending := rest } := by
  obtain ⟨i, hd, _⟩ | ⟨r, _, hr⟩ := decodeCommand_cases c
  · rw [step_of_ok h hd, exec_spec, issue_of_ok s hd]
  · simp [hr] at hok

/-- A run goes on from the next state of its first step. -/
theorem run_succ_of_next {M : Host.Core} {s t : M.State} (n : Nat) (h : M.step s = .next t) : M.run (n + 1) s = M.run n t := by
  rw [Host.Core.run, h]

end Sys2Proof.Machine

namespace Sys2Proof.Claims

open Sys2Proof.Machine

/-- Settles O5: the checks of opcode and immediate are the decoder's own, those of the operand are O46's on the one word of
TX_SETTINGS that reaches them. -/
theorem refusalChecksInOrder : Obligations.RefusalChecksInOrder := by
  intro c
  obtain ⟨_, hoperand, _⟩ := txSettingsResult
  refine ⟨decodeCommand_of_reservedOp, fun _ => decodeCommand_of_nonZeroImm, fun himm hbits => ?_,
    fun himm hbits hindex => ?_, fun hop himm hbits hindex => ?_⟩
  · obtain ⟨p, rfl⟩ := exists_operand_of_txSettings hbits.1 himm
    obtain ⟨hrefused, _⟩ := hoperand p
    exact hrefused hbits
  · obtain ⟨p, rfl⟩ := exists_operand_of_txSettings hindex.1 himm
    obtain ⟨_, hrefused, _⟩ := hoperand p
    exact hrefused hbits hindex
  · by_cases hset : opNat c = 0x12
    · obtain ⟨p, rfl⟩ := exists_operand_of_txSettings hset himm
      obtain ⟨_, _, haccepted⟩ := hoperand p
      obtain ⟨st, _, _, hst⟩ := haccepted hbits hindex
      exact ⟨.txSettings st, hst⟩
    · exact exists_decode_of_not_txSettings hop himm hset

/-- Settles O6, by induction on the commands: a refused command changes neither side, and no command removes a mark. -/
theorem refusalsLeaveOnlyTheMark : Obligations.RefusalsLeaveOnlyTheMark := by
  refine ⟨fun c r s hd => ?_, fun cs s h => ?_, fun cs s =>
    ⟨sameBlock_runCommands_filter cs ⟨rfl, rfl⟩, runCommands_refusalMark_eq_none_iff cs s⟩⟩
  · rw [issue_of_error s hd]
    rfl
  · obtain ⟨r, hr⟩ := Option.isSome_iff_exists.1 h
    rw [runCommands_refusalMark_of_marked cs hr, hr]

/-- Settles O7, by induction on the commands: each step issues the next one. -/
theorem stepRunIsHostRun : Obligations.StepRunIsHostRun := by
  intro cs
  induction cs with
  | nil =>
    rintro ⟨_, _, _, _, _⟩ rfl -
    rfl
  | cons c cs ih =>
    intro s hp hok
    obtain ⟨hc, hcs⟩ := List.forall_mem_cons.1 hok
    calc core.run (cs.length + 1) s
      _ = core.run cs.length { issue c s with pending := cs } := run_succ_of_next (M := core) _ (step_eq_issue hp hc)
      _ = .next (runCommands cs { issue c s with pending := [] }) := ih _ rfl hcs
      _ = .next (runCommands (c :: cs) { s with pending := [] }) := by
        rw [runCommands_cons, issue_with_pending c s []]

end Sys2Proof.Claims

/-! PROOFS. Power-on reset (spec/70_reset_and_hazards.md): the buffers and status bits it leaves. -/

namespace Sys2Proof.Machine

@[simp] theorem Tx.blank_byte (n i : Nat) : (Tx.blank n).byte i = 0x00 := byteAt_zeroBuffer i

/-- A side that holds no bytes holds no complete frame: the length byte has not arrived (R26). -/
theorem Rx.complete_of_cursor_zero {r : Rx} (h : r.cursor = 0) : r.complete = false :=
  Rx.complete_eq_false_iff.2 (.inl (by omega))

/-- An incomplete frame is not valid (R27). -/
theorem Rx.valid_of_incomplete {r : Rx} (h : r.complete = false) : r.valid = false :=
  Bool.eq_false_of_not_eq_true fun hv => Bool.false_ne_true (h.symm.trans (Rx.complete_of_valid hv))

end Sys2Proof.Machine

namespace Sys2Proof.Claims

open Sys2Proof.Machine

/-- Settles O1: the buffers are blank, the status bits follow from the cursor being 0, and the step of a command that decodes is
its meaning, which always completes. -/
theorem powerOnResetState : Obligations.PowerOnResetState := by
  have hcomplete : State.reset.rx.complete = false := Rx.complete_of_cursor_zero Rx.empty_cursor
  refine ⟨fun i _ => ⟨Rx.empty_byte i, Tx.blank_byte _ i⟩, Rx.empty_cursor, Tx.blank_len _, hcomplete,
    Rx.valid_of_incomplete hcomplete, Rx.empty_frameState, fun c i hd => ?_⟩
  rw [step_of_ok rfl hd, exec_spec]
  exact ⟨_, rfl⟩

end Sys2Proof.Claims

/-! PROOFS. The test vectors (spec/95_test_vectors.md): the words and frames of V1, V2, A4, D2b, D3, D12 and F7. -/

namespace Sys2Proof.Claims

/-- Settles O10: each packet of the vectors is the encoding of the well-formed instruction its vector names. -/
theorem writtenWordsDecode : Obligations.WrittenWordsDecode := by
  have hsettings : encode (.txSettings { power := some .on, temp := some 22 }) = .command ⟨0x1200, 0x00B40003⟩ := rfl
  have hconnect : encode (.frameConnect [0xCA, 0x01]) = .wire [0xFC, 0x5A, 0x01, 0x30, 0x02, 0xCA, 0x01, 0xA8] := rfl
  have hok : encode (.frameStatusOk []) = .wire [0xFC, 0x61, 0x01, 0x30, 0x00, 0x6E] := rfl
  refine ⟨decodeCommand_of_encode 0 rfl rfl, decodeCommand_of_encode 0 rfl rfl,
    decodeCommand_eq_ok_iff.2 (Command.spells_of_encode rfl hsettings), decodeCommand_of_encode 0 rfl rfl,
    decodeCommand_of_encode 0 rfl rfl, ?_, ?_⟩
  · rw [← hconnect]
    exact decodeOfEncode _ rfl
  · rw [← hok]
    exact decodeOfEncode _ rfl

end Sys2Proof.Claims
